-- ==== Sys2Proof/Word.lean ====
section
/-!
DEFINITION. The word types of the block (00_scope.md R10) and the abstract transport-error token (R10, D30).
-/

namespace Sys2Proof

/-- One byte of a stream or of a host buffer (20_memory.md R50). -/
abbrev Byte := BitVec 8

/-- A 64-bit register, operand or response value (00_scope.md R10). -/
abbrev Word := BitVec 64

/-- The 32-bit command word `cmd` (30_encoding.md R70). -/
abbrev CmdWord := BitVec 32

/-- The opaque transport-error token (00_scope.md R10, 10_state.md R34): an abstract token type, which R10 allows
in place of a width `ERR_W`. The block copies it and never computes with it (93 I10). Log entry 5. -/
structure ErrToken where
  code : Nat
deriving DecidableEq, Repr, Inhabited

/-- The token of a response that carries none: "a field not listed is 0" (00_scope.md R15). -/
def ErrToken.zero : ErrToken := ⟨0⟩

/-- The bit-order policy of a unit (10_state.md R26); the code is 0 for the first and 1 for the second. -/
inductive BitOrder where
  | mostSignificantFirst
  | leastSignificantFirst
deriving DecidableEq, Repr, Inhabited

/-- The two command ports, one for each unit (10_state.md R33). -/
inductive PortId where
  | reader
  | writer
deriving DecidableEq, Repr, Inhabited

end Sys2Proof
end

