-- ==== Sys2Proof/Syntax.lean ====
section
/-!
DEFINITION. The command as it stands on a port, the instructions of spec/opcode_table.json, and the assembler lines and
pseudo-instructions of 30_encoding.md R83 and R84.
-/

namespace Sys2Proof

/-- The triple `(cmd, operand, buf)` the host puts on a command port (10_state.md R33). -/
structure Command where
  cmd : CmdWord
  operand : Word
  buf : List Byte
deriving DecidableEq, Repr, Inhabited

/-- The six commands of 30_encoding.md R76, one constructor for each row of the opcode table. -/
inductive Instr where
  /-- RDBITS (40_bitreader.md R100): read `count` bits; `discard` is the flag `D`. -/
  | rdbits (count : BitVec 8) (discard : Bool)
  /-- RDBYTES (42_byteadapter.md R151): fill the buffer `buf` of `len` bytes. -/
  | rdbytes (len : BitVec 32) (buf : List Byte)
  /-- WRBITS (41_bitwriter.md R120): append the low `count` bits of `value`. -/
  | wrbits (count : BitVec 8) (value : Word)
  /-- WRBYTES (42_byteadapter.md R160): append the `len` bytes of `buf`. -/
  | wrbytes (len : BitVec 32) (buf : List Byte)
  /-- PADDING (41_bitwriter.md R130). -/
  | padding
  /-- FLUSH (41_bitwriter.md R132). -/
  | flush
deriving DecidableEq, Repr, Inhabited

/-- An assembler line (30_encoding.md R83) or a pseudo-instruction (R84). The `n` of a bit command is 0 to 255 (R83). -/
inductive Asm where
  | rdbits (n : BitVec 8)
  | rdbitsD (n : BitVec 8)
  /-- `RDBYTES len`, with the host's buffer to fill. -/
  | rdbytes (len : BitVec 32) (buf : List Byte)
  | wrbits (n : BitVec 8) (v : Word)
  | wrbytes (len : BitVec 32) (bytes : List Byte)
  | padding
  | flush
  | skipbits (n : BitVec 8)
  | rdbyte
  | wrbyte (v : Word)
  | nopr
  | nopw
  /-- `ALIGNW`: two commands; `p` is the `n` of the first one's response, which the host reads in between. -/
  | alignw (p : BitVec 8)
  | finish
deriving DecidableEq, Repr, Inhabited

end Sys2Proof
end

