-- ==== Sys2Proof/WellFormed.lean ====
section
/-!
DEFINITION. What the spec asks of an instruction beyond its fields: the byte buffer of a byte command holds `len` bytes.
-/

namespace Sys2Proof

/-- "`buf` is a byte buffer of length `len`" (10_state.md R33, 30_encoding.md R75). Every `count` from 0 to 255 is
encodable and has a meaning (R72), so the bit commands have no condition. -/
def Instr.wellFormed : Instr → Bool
  | .rdbits _ _ => true
  | .rdbytes len buf => buf.length == len.toNat
  | .wrbits _ _ => true
  | .wrbytes len buf => buf.length == len.toNat
  | .padding => true
  | .flush => true

end Sys2Proof
end

