-- ==== Sys2Proof/Decode.lean ====
section
/-!
DEFINITION. The decoders of the two command ports (30_encoding.md R77), total on every command and rejecting by name; the
encoder, written from the fields of R71 and the opcode map of R76; the assembler lines and pseudo-instructions (R83, R84);
and the reading of a word numbered as spec/opcode_table.json numbers it.
-/

namespace Sys2Proof

/-- Why a word is ILLEGAL on a port (30_encoding.md R78): its `op` is assigned to no command, it is a word of the other
unit, or a reserved bit is set. All three get the one response IllegalCommand. -/
inductive DecodeError where
  | unassignedOp
  | otherUnit
  | reservedBits
deriving DecidableEq, Repr

/-- A row of the opcode map: a word `w` matches it when `w AND mask = match` (30_encoding.md R76). -/
structure OpcodeRow where
  pattern : CmdWord
  mask : CmdWord
deriving DecidableEq, Repr

/-- Does the word match the row (30_encoding.md R76)? -/
def OpcodeRow.hits (row : OpcodeRow) (w : CmdWord) : Bool := w &&& row.mask == row.pattern

/-- 30_encoding.md R76, RDBITS. -/
def rowRdbits : OpcodeRow := ⟨0x10000000#32, 0xFFFEFF00#32⟩
/-- 30_encoding.md R76, RDBYTES. -/
def rowRdbytes : OpcodeRow := ⟨0x11000000#32, 0xFFFFFFFF#32⟩
/-- 30_encoding.md R76, WRBITS. -/
def rowWrbits : OpcodeRow := ⟨0x20000000#32, 0xFFFFFF00#32⟩
/-- 30_encoding.md R76, WRBYTES. -/
def rowWrbytes : OpcodeRow := ⟨0x21000000#32, 0xFFFFFFFF#32⟩
/-- 30_encoding.md R76, PADDING. -/
def rowPadding : OpcodeRow := ⟨0x22000000#32, 0xFFFFFFFF#32⟩
/-- 30_encoding.md R76, FLUSH. -/
def rowFlush : OpcodeRow := ⟨0x23000000#32, 0xFFFFFFFF#32⟩

/-- The rows of 30_encoding.md R76 in the table's order. -/
def opcodeRows : List OpcodeRow :=
  [rowRdbits, rowRdbytes, rowWrbits, rowWrbytes, rowPadding, rowFlush]

/-- The rows whose words a port accepts (30_encoding.md R76, the column `unit`). -/
def PortId.rows : PortId → List OpcodeRow
  | .reader => [rowRdbits, rowRdbytes]
  | .writer => [rowWrbits, rowWrbytes, rowPadding, rowFlush]

/-- `op = cmd[31:24]` (30_encoding.md R71). -/
def opField (w : CmdWord) : BitVec 8 := w.extractLsb' 24 8
/-- `D = cmd[16]` (30_encoding.md R74). -/
def discardField (w : CmdWord) : Bool := w.getLsbD 16
/-- `count = cmd[7:0]` (30_encoding.md R72). -/
def countField (w : CmdWord) : BitVec 8 := w.extractLsb' 0 8
/-- `len = operand[31:0]` (30_encoding.md R75). -/
def lenField (operand : Word) : BitVec 32 := operand.extractLsb' 0 32

/-- The opcodes of a port (30_encoding.md R76). -/
def PortId.opcodes : PortId → List (BitVec 8)
  | .reader => [0x10#8, 0x11#8]
  | .writer => [0x20#8, 0x21#8, 0x22#8, 0x23#8]

/-- The other unit's port. -/
def PortId.other : PortId → PortId
  | .reader => .writer
  | .writer => .reader

/-- The name of an undecodable word's defect (30_encoding.md R78). -/
def rejectReason (p : PortId) (w : CmdWord) : DecodeError :=
  if p.opcodes.contains (opField w) then .reservedBits
  else if p.other.opcodes.contains (opField w) then .otherUnit
  else .unassignedOp

/-- `decode_R` (30_encoding.md R77): the Reader unit's command port. -/
def decodeReader (c : Command) : Except DecodeError Instr :=
  if rowRdbits.hits c.cmd then .ok (.rdbits (countField c.cmd) (discardField c.cmd))
  else if rowRdbytes.hits c.cmd then .ok (.rdbytes (lenField c.operand) c.buf)
  else .error (rejectReason .reader c.cmd)

/-- `decode_W` (30_encoding.md R77): the Writer unit's command port. -/
def decodeWriter (c : Command) : Except DecodeError Instr :=
  if rowWrbits.hits c.cmd then .ok (.wrbits (countField c.cmd) c.operand)
  else if rowWrbytes.hits c.cmd then .ok (.wrbytes (lenField c.operand) c.buf)
  else if rowPadding.hits c.cmd then .ok .padding
  else if rowFlush.hits c.cmd then .ok .flush
  else .error (rejectReason .writer c.cmd)

/-- Decoding is a total function of the port and the command (30_encoding.md R77). -/
def decode : PortId → Command → Except DecodeError Instr
  | .reader, c => decodeReader c
  | .writer, c => decodeWriter c

/-- The port on which an instruction's word is a command (30_encoding.md R76, the column `unit`). -/
def Instr.port : Instr → PortId
  | .rdbits _ _ => .reader
  | .rdbytes _ _ => .reader
  | .wrbits _ _ => .writer
  | .wrbytes _ _ => .writer
  | .padding => .writer
  | .flush => .writer

/-- Format C (30_encoding.md R71): `op`, `resv1`, `D`, `resv0`, `count` from the most significant bit down. -/
def formatC (op : BitVec 8) (d : Bool) (count : BitVec 8) : CmdWord :=
  op ++ 0#7 ++ BitVec.ofBool d ++ 0#8 ++ count

/-- The command that spells an instruction (30_encoding.md R71 to R76, R83). An operand word or a buffer the
instruction does not use is zero or empty. -/
def encode : Instr → Command
  | .rdbits count discard => ⟨formatC 0x10#8 discard count, 0#64, []⟩
  | .rdbytes len buf => ⟨formatC 0x11#8 false 0#8, len.setWidth 64, buf⟩
  | .wrbits count value => ⟨formatC 0x20#8 false count, value, []⟩
  | .wrbytes len buf => ⟨formatC 0x21#8 false 0#8, len.setWidth 64, buf⟩
  | .padding => ⟨formatC 0x22#8 false 0#8, 0#64, []⟩
  | .flush => ⟨formatC 0x23#8 false 0#8, 0#64, []⟩

/-- What an assembler line or a pseudo-instruction stands for (30_encoding.md R83, R84). -/
def Asm.expand : Asm → List Instr
  | .rdbits n => [.rdbits n false]
  | .rdbitsD n => [.rdbits n true]
  | .rdbytes len buf => [.rdbytes len buf]
  | .wrbits n v => [.wrbits n v]
  | .wrbytes len bytes => [.wrbytes len bytes]
  | .padding => [.padding]
  | .flush => [.flush]
  | .skipbits n => [.rdbits n true]
  | .rdbyte => [.rdbits 8#8 false]
  | .wrbyte v => [.wrbits 8#8 v]
  | .nopr => [.rdbits 0#8 false]
  | .nopw => [.wrbits 0#8 0#64]
  | .alignw p => [.padding, .wrbits p 0#64]
  | .finish => [.flush]

/-- The commands of an assembler line (30_encoding.md R83, R84). -/
def Asm.assemble (a : Asm) : List Command := a.expand.map encode

/-- The text of a byte list, as R83 writes a WRBYTES buffer. -/
def byteListText (bs : List Byte) : String :=
  "[" ++ String.intercalate ", " (bs.map fun b => toString b.toNat) ++ "]"

/-- The text of an assembler line, numbers in decimal (30_encoding.md R83, R84). -/
def Asm.text : Asm → String
  | .rdbits n => "RDBITS " ++ toString n.toNat
  | .rdbitsD n => "RDBITS.D " ++ toString n.toNat
  | .rdbytes len _ => "RDBYTES " ++ toString len.toNat
  | .wrbits n v => "WRBITS " ++ toString n.toNat ++ ", " ++ toString v.toNat
  | .wrbytes len bytes => "WRBYTES " ++ toString len.toNat ++ ", " ++ byteListText bytes
  | .padding => "PADDING"
  | .flush => "FLUSH"
  | .skipbits n => "SKIPBITS " ++ toString n.toNat
  | .rdbyte => "RDBYTE"
  | .wrbyte v => "WRBYTE " ++ toString v.toNat
  | .nopr => "NOPR"
  | .nopw => "NOPW"
  | .alignw _ => "ALIGNW"
  | .finish => "FINISH"

/-- The unit a word's `op[7:4]` selects (30_encoding.md R71: 1 = Reader, 2 = Writer). A word with any other nibble is
ILLEGAL on both ports; it is looked at on the Reader's. -/
def portOfWord (w : CmdWord) : PortId :=
  if w.extractLsb' 28 4 = 2#4 then .writer else .reader

/-- The command laid out in a number as spec/opcode_table.json numbers bits: `cmd` is bits 31 to 0, `operand` the 64
bits above it, and then the buffer's bytes, as many as the operand's `len` field says; bits at and above `nbits` are 0. -/
def commandOfBits (nbits w : Nat) : Command :=
  let bits := w % 2 ^ nbits
  let operand := BitVec.ofNat 64 (bits / 2 ^ 32)
  let cmd := BitVec.ofNat 32 bits
  let len := if rowRdbytes.hits cmd || rowWrbytes.hits cmd then (lenField operand).toNat else 0
  ⟨cmd, operand, (List.range len).map fun j => BitVec.ofNat 8 (bits / 2 ^ (96 + 8 * j))⟩

/-- The instruction the decoder reads from those bits, on the port that the word's `op` selects; none where the
decoder rejects it. -/
def decodeTableWord (nbits w : Nat) : Option Instr :=
  match decode (portOfWord (commandOfBits nbits w).cmd) (commandOfBits nbits w) with
  | .ok i => some i
  | .error _ => none

end Sys2Proof
end

