-- ==== Sys2Proof/Config.lean ====
section
/-!
DEFINITION. The fixed parameters of 00_scope.md R10, and the free values: the answers of an attached source or sink about
which nothing is known (93_implementation_defined.md I3, I4), and whether a transport answers again after a reset during a
command (70_reset_and_hazards.md R233). A free value is an opaque constant with no body, so nothing
can be proved of it; it is applied to the number of requests answered before. Log entries 3 and 6.
-/

namespace Sys2Proof

/-- `REG_W` (00_scope.md R10). -/
abbrev Config.regWidth : Nat := 64

/-- `MAX_COUNT`, the largest count of one bit command (00_scope.md R10). -/
abbrev Config.maxCount : Nat := 64

/-- `REFILL_BYTES` (00_scope.md R10, D10). -/
abbrev Config.refillBytes : Nat := 8

/-- `EMIT_BYTES` (00_scope.md R10). -/
abbrev Config.emitBytes : Nat := 8

/-- `CHUNK_BYTES`, the largest chunk of a byte command (00_scope.md R10). -/
abbrev Config.chunkBytes : Nat := 8

/-- FREE VALUE: whether the unknown source fails at its request number `n`. -/
opaque Config.sourceFails : Nat → Bool

/-- FREE VALUE: the bytes the unknown source holds ready at its request number `n`; at most the first 8 are delivered. -/
opaque Config.sourceBytes : Nat → List Byte

/-- FREE VALUE: the token with which the unknown source fails at its request number `n`. -/
opaque Config.sourceToken : Nat → ErrToken

/-- FREE VALUE: whether a source whose unit was reset during a command, after `n` answered requests, answers later requests
at all, or stays silent (70_reset_and_hazards.md R233). Log entry 6. -/
opaque Config.sourceAnswersAgain : Nat → Bool

/-- FREE VALUE: whether a sink whose unit was reset during a command, after `n` answered writes, answers later writes at
all, or stays silent (70_reset_and_hazards.md R233). Log entry 6. -/
opaque Config.sinkAnswersAgain : Nat → Bool

/-- FREE VALUE: whether the unknown sink fails at its write number `n`. -/
opaque Config.sinkFails : Nat → Bool

/-- FREE VALUE: how many bytes the unknown sink says it accepted at its failing write number `n`; never more than were
written (10_state.md R44). -/
opaque Config.sinkAccepted : Nat → Nat

/-- FREE VALUE: the token with which the unknown sink fails at its write number `n`. -/
opaque Config.sinkToken : Nat → ErrToken

end Sys2Proof
end

