-- ==== Sys2Proof/Machine/State.lean ====
section
/-!
DEFINITION. The state of the block (10_state.md R20, R23), its ports, the environment it answers to (R32), the reasons a
step can stop, and the state after reset (70_reset_and_hazards.md R231). All of it is plain data.
-/

namespace Sys2Proof.Machine

/-- The Reader unit (10_state.md R20). Only `reg mod 2^valid` is meaningful; the bits above keep the spec's reference
values (R25, D15). The legal values of `valid` are 0 to 64 (R21); `Sys2Proof/Safety.lean` states what a run reaches. -/
structure ReaderUnit where
  order : BitOrder
  reg : Word
  valid : BitVec 7
deriving DecidableEq, Repr

/-- The Writer unit (10_state.md R23). `valid` is 0 to 63, all values of its 6 bits. -/
structure WriterUnit where
  order : BitOrder
  reg : Word
  valid : BitVec 6
deriving DecidableEq, Repr

/-- The status of a response (30_encoding.md R81). The codes 5 to 7 are never produced. -/
inductive Status where
  | ok
  | endOfStream
  | transportError
  | countRangeError
  | illegalCommand
deriving DecidableEq, Repr

/-- A response `(status, n, value, err, buf)` (10_state.md R34). -/
structure Response where
  status : Status
  n : Word
  value : Word
  err : ErrToken
  buf : List Byte
deriving DecidableEq, Repr

/-- A command port with what the host has on it (10_state.md R33 to R35): the commands it has yet to have accepted,
oldest first; the command the unit has accepted and not yet responded to; the responses given, oldest first. -/
structure Port where
  pending : List Command
  current : Option Command
  responses : List Response
deriving DecidableEq, Repr

/-- What an environment can make of a source request (10_state.md R41): bytes, or an error without bytes. The third form,
bytes together with an error, and `data` with more than 8 bytes lie outside the interface (93 I8). -/
inductive SourceAnswer where
  | data (bytes : List Byte)
  | error (e : ErrToken)
  | dataWithError (bytes : List Byte) (e : ErrToken)
deriving DecidableEq, Repr

/-- An answer the interface carries (10_state.md R41). -/
inductive SourceReply where
  | data (bytes : List Byte)
  | error (e : ErrToken)
deriving DecidableEq, Repr

/-- What a source does when no answer is lined up: hold a finite byte list that it hands out 8 at a time and then
nothing (a source that keeps the contract of 10_state.md R42); answer in a way nothing is known about (free values);
or never answer (93 I15). Log entry 3. -/
inductive SourceRest where
  | stream (bytes : List Byte)
  | unknown
  | silent
deriving DecidableEq, Repr

/-- The byte source (10_state.md R40 to R42), environment: the answers lined up, what follows them, and the answers given
so far, one for each SrcRead(8), oldest first. -/
structure Source where
  script : List SourceAnswer
  rest : SourceRest
  log : List SourceReply
deriving DecidableEq, Repr

/-- What an environment can make of a sink write (10_state.md R44). `other`, and `error` with more bytes than were
written, lie outside the interface (93 I8). -/
inductive SinkAnswer where
  | ok
  | error (acc : Nat) (e : ErrToken)
  | other
deriving DecidableEq, Repr

/-- An answer the interface carries (10_state.md R44). -/
inductive SinkReply where
  | ok
  | error (acc : Nat) (e : ErrToken)
deriving DecidableEq, Repr

/-- What a sink does when no answer is lined up: accept everything, answer in a way nothing is known about (free values),
or never answer (93 I15). Log entry 3. -/
inductive SinkRest where
  | accepting
  | unknown
  | silent
deriving DecidableEq, Repr

/-- One answered SnkWrite (10_state.md R43): the bytes in stream order, and the answer. -/
structure SinkWrite where
  bytes : List Byte
  reply : SinkReply
deriving DecidableEq, Repr

/-- The byte sink (10_state.md R43 to R45), environment: the answers lined up, what follows them, and the writes answered
so far, oldest first. -/
structure Sink where
  script : List SinkAnswer
  rest : SinkRest
  log : List SinkWrite
deriving DecidableEq, Repr

/-- One move of an agent (00_scope.md R18, 10_state.md R37, 70_reset_and_hazards.md R235). -/
inductive Turn where
  /-- The unit of the port serves the command it has accepted, or accepts the next one. -/
  | serve (p : PortId)
  /-- The unit's reset input (`rst_r`, `rst_w`) is asserted. -/
  | reset (p : PortId)
  /-- The environment drives the unit's configuration input (`cfg_order_r`, `cfg_order_w`). -/
  | configure (p : PortId) (order : BitOrder)
  /-- The environment attaches a source, or the attached one now has these answers ready. -/
  | attachSource (script : List SourceAnswer) (rest : SourceRest)
  /-- The environment attaches a sink, or the attached one now has these answers ready. -/
  | attachSink (script : List SinkAnswer) (rest : SinkRest)
deriving DecidableEq, Repr

/-- The whole machine: the two units (10_state.md R20, R23), the configuration inputs (R37), the two command ports (R33),
the source and the sink (R40, R43), and whose move is next (log entry 1). -/
structure State where
  reader : ReaderUnit
  writer : WriterUnit
  cfgOrderR : BitOrder
  cfgOrderW : BitOrder
  readerPort : Port
  writerPort : Port
  source : Source
  sink : Sink
  agenda : List Turn
deriving DecidableEq, Repr

/-- Why a command has no step. Both are safe: the unit waits, and no outcome of the command is claimed. `step` raises
neither: it lets the unit wait (60_exceptions.md R219). -/
inductive Fault where
  /-- Raised by RDBITS and RDBYTES when the source does not answer (93 I15: "The unit has no step until the answer
  comes"). Safe. -/
  | awaitingSource
  /-- Raised by WRBITS, WRBYTES and FLUSH when the sink does not answer (93 I15). Safe. -/
  | awaitingSink
deriving DecidableEq, Repr

/-- Inputs from outside for which the spec gives no outcome. -/
inductive Refusal where
  /-- Raised by `exec` alone, for an instruction that has no meaning yet. Safe: it claims nothing of the instruction. -/
  | notModelled (mnemonic : String)
  /-- Raised by RDBITS and RDBYTES for a source answer outside the interface (93 I8, treatment `refuse`). Safe. -/
  | sourceAnswerOutsideInterface
  /-- Raised by WRBITS, WRBYTES and FLUSH for a sink answer outside the interface (93 I8, treatment `refuse`). Safe. -/
  | sinkAnswerOutsideInterface
  /-- Raised by RDBYTES and WRBYTES for a buffer that does not hold `len` bytes, which is no command (10_state.md R33,
  30_encoding.md R75). Safe. -/
  | bufferNotLen
deriving DecidableEq, Repr

/-- A port on which nothing has happened (70_reset_and_hazards.md R232). -/
def Port.idle : Port := ⟨[], none, []⟩

/-- The machine after both units' resets under given configuration inputs (70_reset_and_hazards.md R231). A source and a
sink are attached and nothing is known of their answers (log entry 3). -/
def State.resetWith (cfgOrderR cfgOrderW : BitOrder) : State where
  reader := ⟨cfgOrderR, 0#64, 0#7⟩
  writer := ⟨cfgOrderW, 0#64, 0#6⟩
  cfgOrderR := cfgOrderR
  cfgOrderW := cfgOrderW
  readerPort := Port.idle
  writerPort := Port.idle
  source := ⟨[], .unknown, []⟩
  sink := ⟨[], .unknown, []⟩
  agenda := []

/-- The machine after reset with both configuration inputs at their default (00_scope.md R10, 70_reset_and_hazards.md
R231). -/
def State.reset : State := State.resetWith .mostSignificantFirst .mostSignificantFirst

end Sys2Proof.Machine
end

