-- ==== Sys2Proof/Machine/Operands.lean ====
section
/-!
DEFINITION. Bit strings on natural numbers (00_scope.md R12, R13), the BitOrderTable and the byte transform
(43_bitordertable.md), the byte order of refills and emits (20_memory.md R55, R56), and the operands and chunks of the
commands (30_encoding.md R72 to R75, 42_byteadapter.md R152). A shift by `n` is division or multiplication by `2^n` on
naturals, so no shift has a largest amount (D36).
-/

namespace Sys2Proof.Machine

/-- `low(v, n)`: the low `n` bits (00_scope.md R12). -/
def low (v n : Nat) : Nat := v % 2 ^ n

/-- `content(reg, valid)`: the logical content of a register (00_scope.md R13, 10_state.md R24). -/
def content (reg : Word) (valid : Nat) : Nat := low reg.toNat valid

/-- `top(x, w, n)`: the top `n` bits of a `w`-bit value (00_scope.md R13). -/
def top (x w n : Nat) : Nat := x / 2 ^ (w - n)

/-- `x ++_b y`: a bit string followed by a `b`-bit one (00_scope.md R13). -/
def concatBits (x b y : Nat) : Nat := x * 2 ^ b + y

/-- `zext_64(v)` (00_scope.md R12). -/
def zext64 (v : Nat) : Word := BitVec.ofNat 64 v

/-- The Reader's logical content (10_state.md R24). -/
def readerContent (u : ReaderUnit) : Nat := content u.reg u.valid.toNat

/-- The Writer's logical content (10_state.md R24). -/
def writerContent (u : WriterUnit) : Nat := content u.reg u.valid.toNat

/-- `reverseBits(b)[i] = b[7 - i]` (43_bitordertable.md R170). -/
def reverseBits (b : Byte) : Byte := b.reverse

/-- The 256 entries of the BitOrderTable as 43_bitordertable.md R171 lists them (10_state.md R30): constant, with no
reset (R175). -/
def bitOrderTable : List Byte :=
  [0x00, 0x80, 0x40, 0xC0, 0x20, 0xA0, 0x60, 0xE0, 0x10, 0x90, 0x50, 0xD0, 0x30, 0xB0, 0x70, 0xF0] ++
  [0x08, 0x88, 0x48, 0xC8, 0x28, 0xA8, 0x68, 0xE8, 0x18, 0x98, 0x58, 0xD8, 0x38, 0xB8, 0x78, 0xF8] ++
  [0x04, 0x84, 0x44, 0xC4, 0x24, 0xA4, 0x64, 0xE4, 0x14, 0x94, 0x54, 0xD4, 0x34, 0xB4, 0x74, 0xF4] ++
  [0x0C, 0x8C, 0x4C, 0xCC, 0x2C, 0xAC, 0x6C, 0xEC, 0x1C, 0x9C, 0x5C, 0xDC, 0x3C, 0xBC, 0x7C, 0xFC] ++
  [0x02, 0x82, 0x42, 0xC2, 0x22, 0xA2, 0x62, 0xE2, 0x12, 0x92, 0x52, 0xD2, 0x32, 0xB2, 0x72, 0xF2] ++
  [0x0A, 0x8A, 0x4A, 0xCA, 0x2A, 0xAA, 0x6A, 0xEA, 0x1A, 0x9A, 0x5A, 0xDA, 0x3A, 0xBA, 0x7A, 0xFA] ++
  [0x06, 0x86, 0x46, 0xC6, 0x26, 0xA6, 0x66, 0xE6, 0x16, 0x96, 0x56, 0xD6, 0x36, 0xB6, 0x76, 0xF6] ++
  [0x0E, 0x8E, 0x4E, 0xCE, 0x2E, 0xAE, 0x6E, 0xEE, 0x1E, 0x9E, 0x5E, 0xDE, 0x3E, 0xBE, 0x7E, 0xFE] ++
  [0x01, 0x81, 0x41, 0xC1, 0x21, 0xA1, 0x61, 0xE1, 0x11, 0x91, 0x51, 0xD1, 0x31, 0xB1, 0x71, 0xF1] ++
  [0x09, 0x89, 0x49, 0xC9, 0x29, 0xA9, 0x69, 0xE9, 0x19, 0x99, 0x59, 0xD9, 0x39, 0xB9, 0x79, 0xF9] ++
  [0x05, 0x85, 0x45, 0xC5, 0x25, 0xA5, 0x65, 0xE5, 0x15, 0x95, 0x55, 0xD5, 0x35, 0xB5, 0x75, 0xF5] ++
  [0x0D, 0x8D, 0x4D, 0xCD, 0x2D, 0xAD, 0x6D, 0xED, 0x1D, 0x9D, 0x5D, 0xDD, 0x3D, 0xBD, 0x7D, 0xFD] ++
  [0x03, 0x83, 0x43, 0xC3, 0x23, 0xA3, 0x63, 0xE3, 0x13, 0x93, 0x53, 0xD3, 0x33, 0xB3, 0x73, 0xF3] ++
  [0x0B, 0x8B, 0x4B, 0xCB, 0x2B, 0xAB, 0x6B, 0xEB, 0x1B, 0x9B, 0x5B, 0xDB, 0x3B, 0xBB, 0x7B, 0xFB] ++
  [0x07, 0x87, 0x47, 0xC7, 0x27, 0xA7, 0x67, 0xE7, 0x17, 0x97, 0x57, 0xD7, 0x37, 0xB7, 0x77, 0xF7] ++
  [0x0F, 0x8F, 0x4F, 0xCF, 0x2F, 0xAF, 0x6F, 0xEF, 0x1F, 0x9F, 0x5F, 0xDF, 0x3F, 0xBF, 0x7F, 0xFF]

/-- `xform(order, b)`, applied to every byte that crosses between a register and a byte stream (43_bitordertable.md
R172, 20_memory.md R52). -/
def xform : BitOrder → Byte → Byte
  | .mostSignificantFirst, b => b
  | .leastSignificantFirst, b => reverseBits b

/-- The value of a byte list, first byte most significant (20_memory.md R55, R57). -/
def packBytes : List Byte → Nat
  | [] => 0
  | b :: bs => b.toNat * 2 ^ (8 * bs.length) + packBytes bs

/-- The low `m` bytes of a value, most significant first (20_memory.md R56, R57). -/
def unpackBytes : Nat → Nat → List Byte
  | 0, _ => []
  | m + 1, y => BitVec.ofNat 8 (y / 2 ^ (8 * m)) :: unpackBytes m y

/-- `F`: the fresh bits of a refill (20_memory.md R55, 40_bitreader.md R110). -/
def freshBits (order : BitOrder) (bytes : List Byte) : Nat := packBytes (bytes.map (xform order))

/-- The bytes of an `m`-byte emit of `y`, in stream order (20_memory.md R56). -/
def emittedBytes (order : BitOrder) (m y : Nat) : List Byte := (unpackBytes m y).map (xform order)

/-- The bits up to the next byte boundary (41_bitwriter.md R130). -/
def paddingBits (valid : Nat) : Nat := (8 - valid % 8) % 8

/-- Store bytes into a buffer from position `i` on; the other positions keep their values (42_byteadapter.md R153,
R154). -/
def storeAt (buf : List Byte) (i : Nat) (bytes : List Byte) : List Byte :=
  buf.take i ++ bytes ++ buf.drop (i + bytes.length)

/-- The chunks of a byte command of `len` bytes: 8 bytes while 8 or more remain, then one of `len mod 8` when that is
not 0 (42_byteadapter.md R152, R161, R162). -/
def chunkSizes (len : Nat) : List Nat :=
  List.replicate (len / Config.chunkBytes) Config.chunkBytes
    ++ (if len % Config.chunkBytes = 0 then [] else [len % Config.chunkBytes])

/-- The chunk of `c` bytes at position `i` of the host's buffer, as a number (42_byteadapter.md R161, R162). -/
def chunkValue (buf : List Byte) (i c : Nat) : Nat := packBytes ((buf.drop i).take c)

end Sys2Proof.Machine
end

