-- ==== Sys2Proof/Machine/Flags.lean ====
section
/-!
DEFINITION. The block has no status flags and no condition codes (10_state.md R29): what takes their place is the status
of a command's response (30_encoding.md R80, R81), computed here.
-/

namespace Sys2Proof.Machine

/-- `status[2:0]` (30_encoding.md R81). -/
def Status.code : Status → BitVec 3
  | .ok => 0#3
  | .endOfStream => 1#3
  | .transportError => 2#3
  | .countRangeError => 3#3
  | .illegalCommand => 4#3

/-- The status a code stands for; none for 5 to 7, which the block never produces (30_encoding.md R81, 93 I12). -/
def Status.ofCode (c : BitVec 3) : Option Status :=
  if c = 0#3 then some .ok
  else if c = 1#3 then some .endOfStream
  else if c = 2#3 then some .transportError
  else if c = 3#3 then some .countRangeError
  else if c = 4#3 then some .illegalCommand
  else none

/-- The code of a bit order (10_state.md R26). -/
def orderCode : BitOrder → BitVec 1
  | .mostSignificantFirst => 0#1
  | .leastSignificantFirst => 1#1

/-- `respond(status, n, value)`: a response with no token and no buffer (00_scope.md R15, 30_encoding.md R80). -/
def respond (status : Status) (n value : Nat) : Response :=
  ⟨status, zext64 n, zext64 value, ErrToken.zero, []⟩

/-- A response that may carry a token: `err` is the transport's for TransportError and 0 otherwise (30_encoding.md
R80). -/
def respondErr (status : Status) (n value : Nat) (err : ErrToken) : Response :=
  ⟨status, zext64 n, zext64 value, err, []⟩

/-- A response of RDBYTES, which returns the buffer too (30_encoding.md R80). -/
def respondBuf (status : Status) (n : Nat) (err : ErrToken) (buf : List Byte) : Response :=
  ⟨status, zext64 n, 0#64, err, buf⟩

end Sys2Proof.Machine
end

