-- ==== Sys2Proof/Machine/Ops.lean ====
section
/-!
DEFINITION. The operations every command is made of: one request to the source or the sink (10_state.md R40 to R44), the
bit commands on one unit (40_bitreader.md R101, 41_bitwriter.md R120 and R132), the port's acceptance and response
(10_state.md R34, R35), and the reset of a unit (70_reset_and_hazards.md R230 to R233). The block has no exceptions:
nothing is entered and nothing is returned from (60_exceptions.md R200, R210).
-/

namespace Sys2Proof.Machine

/-- Go on with a result; a fault or a refusal stops. -/
def andThen {α β : Type} (o : Host.Outcome α Fault Refusal) (f : α → Host.Outcome β Fault Refusal) :
    Host.Outcome β Fault Refusal :=
  match o with
  | .next a => f a
  | .fault r => .fault r
  | .refused r => .refused r

/-! ### The source and the sink -/

/-- The answer of a source about which nothing is known, to its request number `k`: within the interface of 10_state.md
R41, and otherwise a free value. -/
def unknownSourceAnswer (k : Nat) : SourceAnswer :=
  if Config.sourceFails k then .error (Config.sourceToken k)
  else .data ((Config.sourceBytes k).take Config.refillBytes)

/-- What the source answers next to SrcRead(8); none where it does not answer (93 I15). -/
def Source.answer (src : Source) : Option SourceAnswer :=
  match src.script with
  | a :: _ => some a
  | [] =>
    match src.rest with
    | .stream bytes => some (.data (bytes.take Config.refillBytes))
    | .unknown => some (unknownSourceAnswer src.log.length)
    | .silent => none

/-- What follows the lined-up answers once one more request has been answered. -/
def SourceRest.afterRead : SourceRest → SourceRest
  | .stream bytes => .stream (bytes.drop Config.refillBytes)
  | .unknown => .unknown
  | .silent => .silent

/-- The source after it has given an answer: its bytes are consumed and never asked for again (20_memory.md R62). -/
def Source.answered (src : Source) (reply : SourceReply) : Source :=
  match src.script with
  | _ :: rest => ⟨rest, src.rest, src.log ++ [reply]⟩
  | [] => ⟨[], src.rest.afterRead, src.log ++ [reply]⟩

/-- `SrcRead(8)` (00_scope.md R15, 10_state.md R40, R41). -/
def srcRead (src : Source) : Host.Outcome (SourceReply × Source) Fault Refusal :=
  match src.answer with
  | none => .fault .awaitingSource
  | some (.data bytes) =>
    if bytes.length ≤ Config.refillBytes then .next (.data bytes, src.answered (.data bytes))
    else .refused .sourceAnswerOutsideInterface
  | some (.error e) => .next (.error e, src.answered (.error e))
  | some (.dataWithError _ _) => .refused .sourceAnswerOutsideInterface

/-- The answer of a sink about which nothing is known, to its write number `k` of `m` bytes: within the interface of
10_state.md R44, and otherwise a free value. -/
def unknownSinkAnswer (k m : Nat) : SinkAnswer :=
  if Config.sinkFails k then .error (min (Config.sinkAccepted k) m) (Config.sinkToken k) else .ok

/-- What the sink answers next to a write of `m` bytes; none where it does not answer (93 I15). -/
def Sink.answer (snk : Sink) (m : Nat) : Option SinkAnswer :=
  match snk.script with
  | a :: _ => some a
  | [] =>
    match snk.rest with
    | .accepting => some .ok
    | .unknown => some (unknownSinkAnswer snk.log.length m)
    | .silent => none

/-- The sink after it has answered a write. -/
def Sink.answered (snk : Sink) (bytes : List Byte) (reply : SinkReply) : Sink :=
  ⟨snk.script.tail, snk.rest, snk.log ++ [⟨bytes, reply⟩]⟩

/-- `SnkWrite(k, bytes)` (00_scope.md R15, 10_state.md R43, R44): one write, never split or retried (20_memory.md
R61). -/
def snkWrite (bytes : List Byte) (snk : Sink) : Host.Outcome (SinkReply × Sink) Fault Refusal :=
  match snk.answer bytes.length with
  | none => .fault .awaitingSink
  | some .ok => .next (.ok, snk.answered bytes .ok)
  | some (.error acc e) =>
    if acc ≤ bytes.length then .next (.error acc e, snk.answered bytes (.error acc e))
    else .refused .sinkAnswerOutsideInterface
  | some .other => .refused .sinkAnswerOutsideInterface

/-! ### The bit commands on one unit -/

/-- What a read of a bit field gives: its status, count, value and token, and what it leaves. -/
structure ReadResult where
  status : Status
  n : Nat
  value : Nat
  err : ErrToken
  unit : ReaderUnit
  source : Source
deriving DecidableEq, Repr

/-- The refill path once the source has answered (40_bitreader.md R105 to R110): `old` is the tentative drain of the
whole content, `fb` the number of fresh bits, `needed` the bits still missing. -/
def refill (count : Nat) (u : ReaderUnit) (answer : SourceReply × Source) : ReadResult :=
  match answer with
  | (.error e, src) => ⟨.transportError, 0, 0, e, u, src⟩
  | (.data bytes, src) =>
    let d := u.valid.toNat
    let old := readerContent u
    let fresh := freshBits u.order bytes
    let fb := 8 * bytes.length
    let needed := count - d
    if needed > fb then
      ⟨.endOfStream, d + fb, concatBits old fb fresh, ErrToken.zero,
        { u with reg := zext64 fresh, valid := 0#7 }, src⟩
    else
      ⟨.ok, count, concatBits old needed (top fresh fb needed), ErrToken.zero,
        { u with reg := zext64 fresh, valid := BitVec.ofNat 7 (fb - needed) }, src⟩

/-- The buffered path (40_bitreader.md R103, R104): no source request, and `reg` is not written. -/
def readBuffered (count : Nat) (u : ReaderUnit) (src : Source) : ReadResult :=
  ⟨.ok, count, top (readerContent u) u.valid.toNat count, ErrToken.zero,
    { u with valid := BitVec.ofNat 7 (u.valid.toNat - count) }, src⟩

/-- The whole meaning of a bit read (40_bitreader.md R101), in the order of its checks (R111). -/
def readBits (count : Nat) (u : ReaderUnit) (src : Source) : Host.Outcome ReadResult Fault Refusal :=
  if count > Config.maxCount then .next ⟨.countRangeError, 0, 0, ErrToken.zero, u, src⟩
  else if count ≤ u.valid.toNat then .next (readBuffered count u src)
  else andThen (srcRead src) fun answer => .next (refill count u answer)

/-- What a write to the bit stream gives: its status, count and token, and what it leaves. -/
structure WriteResult where
  status : Status
  n : Nat
  err : ErrToken
  unit : WriterUnit
  sink : Sink
deriving DecidableEq, Repr

/-- The end of a command that made one sink write (41_bitwriter.md R125, R126, R134, R135): on `Ok` it leaves the unit
`after` with count `n`, on `Error(acc, e)` the unit stays as it was and the count is `acc`. -/
def settleWrite (u after : WriterUnit) (n : Nat) (answer : SinkReply × Sink) : WriteResult :=
  match answer with
  | (.ok, snk) => ⟨.ok, n, ErrToken.zero, after, snk⟩
  | (.error acc e, snk) => ⟨.transportError, acc, e, u, snk⟩

/-- `room = 64 - W.valid` (41_bitwriter.md R123). -/
def writerRoom (u : WriterUnit) : Nat := Config.regWidth - u.valid.toNat

/-- The Writer after the no-fill path (41_bitwriter.md R122). -/
def appended (count x : Nat) (u : WriterUnit) : WriterUnit :=
  { u with
    reg := zext64 (concatBits (writerContent u) count x)
    valid := BitVec.ofNat 6 (u.valid.toNat + count) }

/-- The 64-bit word of the fill path (41_bitwriter.md R124): the content, then the high bits of `x`. -/
def fullWord (count x : Nat) (u : WriterUnit) : Nat :=
  concatBits (writerContent u) (writerRoom u) (x / 2 ^ (count - writerRoom u))

/-- The Writer after a successful fill (41_bitwriter.md R125). -/
def refilled (count x : Nat) (u : WriterUnit) : WriterUnit :=
  { u with
    reg := zext64 (low x (count - writerRoom u))
    valid := BitVec.ofNat 6 (count - writerRoom u) }

/-- The whole meaning of a bit write (41_bitwriter.md R120), in the order of its checks (R127). -/
def writeBits (count value : Nat) (u : WriterUnit) (snk : Sink) : Host.Outcome WriteResult Fault Refusal :=
  if count > Config.maxCount then .next ⟨.countRangeError, 0, ErrToken.zero, u, snk⟩
  else if count < writerRoom u then .next ⟨.ok, count, ErrToken.zero, appended count (low value count) u, snk⟩
  else
    andThen (snkWrite (emittedBytes u.order Config.emitBytes (fullWord count (low value count) u)) snk) fun answer =>
      .next (settleWrite u (refilled count (low value count) u) count answer)

/-- The bytes of a flush (41_bitwriter.md R133): the content, padded with zeros on the right to whole bytes. -/
def flushBytes (u : WriterUnit) : List Byte :=
  emittedBytes u.order ((u.valid.toNat + paddingBits u.valid.toNat) / 8)
    (writerContent u * 2 ^ paddingBits u.valid.toNat)

/-- The whole meaning of a flush (41_bitwriter.md R132). -/
def flushBits (u : WriterUnit) (snk : Sink) : Host.Outcome WriteResult Fault Refusal :=
  if u.valid.toNat = 0 then .next ⟨.ok, 0, ErrToken.zero, u, snk⟩
  else
    andThen (snkWrite (flushBytes u) snk) fun answer =>
      .next (settleWrite u { u with valid := 0#6 } 0 answer)

/-! ### The ports -/

/-- The command a unit works on: the one it has accepted, else the next on its port, which it accepts now (10_state.md
R35). -/
def Port.accept (p : Port) : Option (Command × Port) :=
  match p.current with
  | some c => some (c, p)
  | none =>
    match p.pending with
    | c :: cs => some (c, ⟨cs, some c, p.responses⟩)
    | [] => none

/-- A command ends with exactly one response, and the port is free again (10_state.md R34, R35). -/
def Port.respond (p : Port) (r : Response) : Port := ⟨p.pending, none, p.responses ++ [r]⟩

/-- The port of a unit. -/
def State.port (s : State) : PortId → Port
  | .reader => s.readerPort
  | .writer => s.writerPort

/-- Replace the port of a unit. -/
def State.setPort (s : State) (p : PortId) (port : Port) : State :=
  match p with
  | .reader => { s with readerPort := port }
  | .writer => { s with writerPort := port }

/-- The end of a Reader command: what it leaves of the unit and the source, and its response. -/
def State.endRead (s : State) (u : ReaderUnit) (src : Source) (r : Response) : State :=
  { s with reader := u, source := src, readerPort := s.readerPort.respond r }

/-- The end of a Writer command: what it leaves of the unit and the sink, and its response. -/
def State.endWrite (s : State) (u : WriterUnit) (snk : Sink) (r : Response) : State :=
  { s with writer := u, sink := snk, writerPort := s.writerPort.respond r }

/-- An illegal command changes no state, makes no request, and is answered IllegalCommand (30_encoding.md R78). -/
def State.endIllegal (s : State) (p : PortId) : State :=
  s.setPort p ((s.port p).respond (Sys2Proof.Machine.respond .illegalCommand 0 0))

/-! ### Reset -/

/-- A command that a reset ends gets no response (70_reset_and_hazards.md R233). -/
def Port.abandon (p : Port) : Port := { p with current := none }

/-- The source after a reset of the Reader. A reset of an idle unit leaves it alone (70_reset_and_hazards.md R232). DESIGN
CHOICE (log entry 6), where R233 leaves the source to the environment: after a reset during a command, whether the source
answers later requests or stays silent is a free value, and so is each answer, until the environment attaches another. -/
def Source.afterReset (src : Source) (inProgress : Option Command) : Source :=
  match inProgress with
  | some _ => ⟨[], if Config.sourceAnswersAgain src.log.length then .unknown else .silent, src.log⟩
  | none => src

/-- The sink after a reset of the Writer, likewise: DESIGN CHOICE (log entry 6), whether it answers later writes or stays
silent is a free value, and so is each answer, until the environment attaches another. -/
def Sink.afterReset (snk : Sink) (inProgress : Option Command) : Sink :=
  match inProgress with
  | some _ => ⟨[], if Config.sinkAnswersAgain snk.log.length then .unknown else .silent, snk.log⟩
  | none => snk

/-- `rst_r` or `rst_w`: the unit is constructed anew, its order sampled from its configuration input; no request is
made (70_reset_and_hazards.md R230 to R233). DESIGN CHOICE (log entry 6): requests that a byte command part way had answered
before the reset ends it never enter the record of its source or sink. -/
def State.resetUnit (s : State) : PortId → State
  | .reader =>
    { s with
      reader := ⟨s.cfgOrderR, 0#64, 0#7⟩
      source := s.source.afterReset s.readerPort.current
      readerPort := s.readerPort.abandon }
  | .writer =>
    { s with
      writer := ⟨s.cfgOrderW, 0#64, 0#6⟩
      sink := s.sink.afterReset s.writerPort.current
      writerPort := s.writerPort.abandon }

/-- Drive a configuration input; the unit samples it only at its reset (10_state.md R37). -/
def State.configure (s : State) (p : PortId) (order : BitOrder) : State :=
  match p with
  | .reader => { s with cfgOrderR := order }
  | .writer => { s with cfgOrderW := order }

end Sys2Proof.Machine
end

