-- ==== Sys2Proof/Machine/BitReader.lean ====
section
/-!
DEFINITION. The meaning of the Reader unit's bit command, RDBITS (40_bitreader.md).
-/

namespace Sys2Proof.Machine

/-- RDBITS (40_bitreader.md R101): one bit read; with `D = 1` the response's value is 0 and nothing else differs
(30_encoding.md R74, R108). -/
def execRdbits (count : BitVec 8) (discard : Bool) (s : State) : Host.Outcome State Fault Refusal :=
  andThen (readBits count.toNat s.reader s.source) fun r =>
    .next (s.endRead r.unit r.source (respondErr r.status r.n (if discard then 0 else r.value) r.err))

end Sys2Proof.Machine
end

