-- ==== Sys2Proof/Machine/BitWriter.lean ====
section
/-!
DEFINITION. The meanings of the Writer unit's commands WRBITS, PADDING and FLUSH (41_bitwriter.md).
-/

namespace Sys2Proof.Machine

/-- WRBITS (41_bitwriter.md R120): one bit write of the low `count` bits of the operand (30_encoding.md R73). -/
def execWrbits (count : BitVec 8) (value : Word) (s : State) : Host.Outcome State Fault Refusal :=
  andThen (writeBits count.toNat value.toNat s.writer s.sink) fun r =>
    .next (s.endWrite r.unit r.sink (respondErr r.status r.n 0 r.err))

/-- PADDING (41_bitwriter.md R130): the bits to the next byte boundary; no state change and no sink request. -/
def execPadding (s : State) : Host.Outcome State Fault Refusal :=
  .next (s.endWrite s.writer s.sink (respond .ok (paddingBits s.writer.valid.toNat) 0))

/-- FLUSH (41_bitwriter.md R132). -/
def execFlush (s : State) : Host.Outcome State Fault Refusal :=
  andThen (flushBits s.writer s.sink) fun r =>
    .next (s.endWrite r.unit r.sink (respondErr r.status r.n 0 r.err))

end Sys2Proof.Machine
end

