-- ==== Sys2Proof/Machine/ByteAdapter.lean ====
section
/-!
DEFINITION. The meanings of the byte commands RDBYTES and WRBYTES (42_byteadapter.md): loops of internal bit commands with
exactly the effects of readBits and writeBits (R150). The loop runs over the list of chunk sizes.
-/

namespace Sys2Proof.Machine

/-- What a loop of internal reads gives: status, whole bytes stored, token and buffer, and what it leaves. -/
structure FillResult where
  status : Status
  n : Nat
  err : ErrToken
  buf : List Byte
  unit : ReaderUnit
  source : Source
deriving DecidableEq, Repr

/-- The loop of RDBYTES (42_byteadapter.md R151) over the chunks that remain, `i` bytes being stored: a full chunk is
unpacked big-endian (R153); a short one stores its whole bytes from `i` on, discards the rest and stops (R154); a
transport error stops and stores nothing (R155). -/
def readChunks : List Nat → Nat → List Byte → ReaderUnit → Source → Host.Outcome FillResult Fault Refusal
  | [], i, buf, u, src => .next ⟨.ok, i, ErrToken.zero, buf, u, src⟩
  | c :: cs, i, buf, u, src =>
    andThen (readBits (8 * c) u src) fun r =>
      match r.status with
      | .ok => readChunks cs (i + c) (storeAt buf i (unpackBytes c r.value)) r.unit r.source
      | .endOfStream =>
        .next ⟨.endOfStream, i + r.n / 8, ErrToken.zero,
          storeAt buf i (unpackBytes (r.n / 8) (r.value / 2 ^ (r.n % 8))), r.unit, r.source⟩
      | .transportError | .countRangeError | .illegalCommand =>
        .next ⟨.transportError, i, r.err, buf, r.unit, r.source⟩

/-- RDBYTES (42_byteadapter.md R151). -/
def execRdbytes (len : BitVec 32) (buf : List Byte) (s : State) : Host.Outcome State Fault Refusal :=
  if buf.length = len.toNat then
    andThen (readChunks (chunkSizes len.toNat) 0 buf s.reader s.source) fun r =>
      .next (s.endRead r.unit r.source (respondBuf r.status r.n r.err r.buf))
  else .refused .bufferNotLen

/-- The loop of WRBYTES (42_byteadapter.md R160) over the chunks that remain, `i` bytes being appended: a transport error
stops it, and its count is `i`, not the sink's (R163). -/
def writeChunks : List Nat → Nat → List Byte → WriterUnit → Sink → Host.Outcome WriteResult Fault Refusal
  | [], i, _, u, snk => .next ⟨.ok, i, ErrToken.zero, u, snk⟩
  | c :: cs, i, buf, u, snk =>
    andThen (writeBits (8 * c) (chunkValue buf i c) u snk) fun r =>
      if r.status = .transportError then .next ⟨.transportError, i, r.err, r.unit, r.sink⟩
      else writeChunks cs (i + c) buf r.unit r.sink

/-- WRBYTES (42_byteadapter.md R160): it does not flush (R164). -/
def execWrbytes (len : BitVec 32) (buf : List Byte) (s : State) : Host.Outcome State Fault Refusal :=
  if buf.length = len.toNat then
    andThen (writeChunks (chunkSizes len.toNat) 0 buf s.writer s.sink) fun r =>
      .next (s.endWrite r.unit r.sink (respondErr r.status r.n 0 r.err))
  else .refused .bufferNotLen

end Sys2Proof.Machine
end

