-- ==== Sys2Proof/Machine/Dispatch.lean ====
section
/-!
DEFINITION. One arm for each constructor of Instr, each a direct call of the instruction's meaning.
-/

namespace Sys2Proof.Machine

def exec (i : Instr) (s : State) : Host.Outcome State Fault Refusal :=
  match i with
  | .rdbits count discard => Sys2Proof.Machine.execRdbits count discard s
  | .rdbytes len buf => Sys2Proof.Machine.execRdbytes len buf s
  | .wrbits count value => Sys2Proof.Machine.execWrbits count value s
  | .wrbytes len buf => Sys2Proof.Machine.execWrbytes len buf s
  | .padding => Sys2Proof.Machine.execPadding s
  | .flush => Sys2Proof.Machine.execFlush s

end Sys2Proof.Machine
end

