-- ==== Sys2Proof/Machine/Serve.lean ====
section
/-!
DEFINITION. One turn of the machine: a unit serves a command, a reset or configuration input is driven, or the environment
attaches a source or a sink (00_scope.md R18, R19, 70_reset_and_hazards.md R235). The block fetches nothing: a command
comes from its port (10_state.md R28).
-/

namespace Sys2Proof.Machine

/-- A command whose source or sink does not answer has no step: the unit keeps it in progress and stays as it is, and
the rest of the machine goes on (60_exceptions.md R219, 10_state.md R35, 93 I15). DESIGN CHOICE (log entries 9 and 14): a byte
command part way waits as it stood before its first request, and at the unit's next turn it makes all its requests of the
source or sink then attached; answers given before the silence enter neither result nor record. -/
def waitOrDone (waiting : State) (o : Host.Outcome State Fault Refusal) : Host.Outcome State Fault Refusal :=
  match o with
  | .next t => .next t
  | .fault .awaitingSource => .next waiting
  | .fault .awaitingSink => .next waiting
  | .refused r => .refused r

/-- Run one command on its port: decode it, and execute it or answer IllegalCommand (30_encoding.md R77, R78). -/
def runCommand (p : PortId) (c : Command) (s : State) : Host.Outcome State Fault Refusal :=
  match decode p c with
  | .ok i => waitOrDone s (exec i s)
  | .error _ => .next (s.endIllegal p)

/-- A unit's turn: with no command on its port it is idle and nothing happens (70_reset_and_hazards.md R232). -/
def serve (p : PortId) (s : State) : Host.Outcome State Fault Refusal :=
  match (s.port p).accept with
  | none => .next s
  | some (c, port) => runCommand p c (s.setPort p port)

/-- One turn. An attached source or sink keeps the record of the requests answered before. DESIGN CHOICE (log entry 14),
where the spec is silent: a source or sink attached while a command waits answers the outstanding request, and all
requests of a byte command again. -/
def takeTurn (t : Turn) (s : State) : Host.Outcome State Fault Refusal :=
  match t with
  | .serve p => serve p s
  | .reset p => .next (s.resetUnit p)
  | .configure p order => .next (s.configure p order)
  | .attachSource script rest => .next { s with source := ⟨script, rest, s.source.log⟩ }
  | .attachSink script rest => .next { s with sink := ⟨script, rest, s.sink.log⟩ }

/-- The next turn of the agenda; with none left nothing happens. -/
def nextTurn (s : State) : Host.Outcome State Fault Refusal :=
  match s.agenda with
  | [] => .next s
  | t :: ts => takeTurn t { s with agenda := ts }

/-- Put a command at the head of a port that works on no other, and make that unit's turn the next. -/
def issueNext (p : PortId) (c : Command) (s : State) : State :=
  { s.setPort p ⟨c :: (s.port p).pending, none, (s.port p).responses⟩ with agenda := .serve p :: s.agenda }

end Sys2Proof.Machine
end

