-- ==== Sys2Proof/Machine/Step.lean ====
section
/-!
DEFINITION. The step of the machine, and the placing of a command where the next step takes it up.
-/

namespace Sys2Proof.Machine

/-- One step is one turn of one agent; a unit's turn is one whole command (00_scope.md R19, 10_state.md R46). -/
def step (s : State) : Host.Outcome State Fault Refusal := nextTurn s

/-- The state with the command of those bits next on the port its `op` selects, and that unit's turn next. -/
def State.withFetchWord (s : State) (nbits w : Nat) : State :=
  issueNext (portOfWord (commandOfBits nbits w).cmd) (commandOfBits nbits w) s

end Sys2Proof.Machine
end

