-- ==== Sys2Proof/Safety.lean ====
section
/-!
DEFINITION. What a run of the block keeps to: the legal counts (10_state.md R21, R22), the form of the traffic on the
source and sink ports (R40 to R44), and the form of the responses on each port (30_encoding.md R80 to R82).
-/

namespace Sys2Proof.Machine

/-- The legal counts of the Reader: 0 to 64 (10_state.md R21). -/
abbrev State.LegalValid (s : State) : Prop := s.reader.valid.toNat ≤ 64

/-- What the Reader's count is in every state a run from reset reaches (10_state.md R22). -/
abbrev State.ReaderBelow64 (s : State) : Prop := s.reader.valid.toNat ≤ 63

/-- An answer within the source interface (10_state.md R41, 93 I8). -/
def SourceAnswer.fits : SourceAnswer → Bool
  | .data bytes => bytes.length ≤ 8
  | .error _ => true
  | .dataWithError _ _ => false

/-- An answer within the sink interface to a write of `m` bytes (10_state.md R44, 93 I8). -/
def SinkAnswer.fits (m : Nat) : SinkAnswer → Bool
  | .ok => true
  | .error acc _ => acc ≤ m
  | .other => false

/-- A reply the source port carries: at most 8 bytes (10_state.md R41). -/
def SourceReply.fits : SourceReply → Bool
  | .data bytes => bytes.length ≤ 8
  | .error _ => true

/-- A write the sink port carries, with its answer: 1 to 8 bytes (10_state.md R43), and an accepted count of no more
(R44). -/
def SinkWrite.fits (w : SinkWrite) : Bool :=
  decide (1 ≤ w.bytes.length) && decide (w.bytes.length ≤ 8) &&
    match w.reply with
    | .ok => true
    | .error acc _ => acc ≤ w.bytes.length

/-- All traffic on the two stream ports has the form of 10_state.md R41, R43 and R44. -/
abbrev State.TrafficFits (s : State) : Prop :=
  (∀ r ∈ s.source.log, r.fits = true) ∧ (∀ w ∈ s.sink.log, w.fits = true)

/-- A response of the Reader's port (30_encoding.md R80): the token is 0 but for TransportError; the value is 0 but for
OK and EndOfStream; a value with its count up to 64 lies below `2^n`. -/
def Response.readerForm (r : Response) : Bool :=
  (r.status == .transportError || r.err == ErrToken.zero) &&
  (r.status == .ok || r.status == .endOfStream || r.value == 0#64) &&
  (decide (r.n.toNat > 64) || decide (r.value.toNat < 2 ^ r.n.toNat))

/-- A response of the Writer's port (30_encoding.md R80, 60_exceptions.md R202): never EndOfStream, no value, no buffer,
and the token is 0 but for TransportError. -/
def Response.writerForm (r : Response) : Bool :=
  r.status != .endOfStream && (r.status == .transportError || r.err == ErrToken.zero) && r.value == 0#64 && r.buf == []

/-- All responses given have their port's form. -/
abbrev State.ResponsesFit (s : State) : Prop :=
  (∀ r ∈ s.readerPort.responses, r.readerForm = true) ∧ (∀ r ∈ s.writerPort.responses, r.writerForm = true)

/-- The source hands out the bytes of a list, 8 at a time, and then nothing (10_state.md R42; 95, source model). -/
abbrev Source.Streams (src : Source) (bytes : List Byte) : Prop := src.script = [] ∧ src.rest = .stream bytes

/-- The sink accepts every write (95, sink model). -/
abbrev Sink.Accepts (snk : Sink) : Prop := snk.script = [] ∧ snk.rest = .accepting

/-- The bytes of the `Data` answers among some replies, in stream order (10_state.md R48). -/
def deliveredBytes : List SourceReply → List Byte
  | [] => []
  | .data bytes :: rs => bytes ++ deliveredBytes rs
  | .error _ :: rs => deliveredBytes rs

/-- The bytes of the successful writes among some writes, in stream order (10_state.md R47). -/
def acceptedBytes : List SinkWrite → List Byte
  | [] => []
  | ⟨bytes, .ok⟩ :: ws => bytes ++ acceptedBytes ws
  | ⟨_, .error _ _⟩ :: ws => acceptedBytes ws

/-- Between two states the Reader's port gave exactly one response, `r` (10_state.md R34). -/
abbrev readerGave (s t : State) (r : Response) : Prop := t.readerPort.responses = s.readerPort.responses ++ [r]

/-- Between two states the Writer's port gave exactly one response, `r` (10_state.md R34). -/
abbrev writerGave (s t : State) (r : Response) : Prop := t.writerPort.responses = s.writerPort.responses ++ [r]

/-- Two Readers that differ at most in the register bits above the count (10_state.md R25). -/
abbrev ReaderUnit.SameContent (u v : ReaderUnit) : Prop :=
  u.order = v.order ∧ u.valid = v.valid ∧ readerContent u = readerContent v

/-- Two Writers that differ at most in the register bits above the count (10_state.md R25). -/
abbrev WriterUnit.SameContent (u v : WriterUnit) : Prop :=
  u.order = v.order ∧ u.valid = v.valid ∧ writerContent u = writerContent v

/-- Two machines that agree on everything but the register bits above the counts (10_state.md R25). -/
abbrev State.SameButGarbage (s t : State) : Prop :=
  s.reader.SameContent t.reader ∧ s.writer.SameContent t.writer ∧
  s = { t with reader := s.reader, writer := s.writer }

/-- The same status and count in each place of two lists of responses (20_memory.md R53). -/
abbrev sameCounts (rs qs : List Response) : Prop :=
  rs.map (fun r => (r.status, r.n)) = qs.map (fun r => (r.status, r.n))

/-- Two ports with the same commands, and the same status and count in each response (20_memory.md R53). -/
abbrev Port.SameCounts (p q : Port) : Prop :=
  p.pending = q.pending ∧ p.current = q.current ∧ sameCounts p.responses q.responses

/-- Two sinks with the same answers to come, and a record of writes of the same lengths with the same answers. -/
abbrev Sink.SameCounts (a b : Sink) : Prop :=
  a.script = b.script ∧ a.rest = b.rest ∧
  a.log.map (fun w => (w.bytes.length, w.reply)) = b.log.map (fun w => (w.bytes.length, w.reply))

/-- Two machines that may differ in bit orders, configuration inputs, register values, response values, buffers and emitted
bytes, and agree in every count, status, request and turn (20_memory.md R53). -/
abbrev State.SameCounts (s t : State) : Prop :=
  s.reader.valid = t.reader.valid ∧ s.writer.valid = t.writer.valid ∧ s.readerPort.SameCounts t.readerPort ∧
  s.writerPort.SameCounts t.writerPort ∧ s.source = t.source ∧ s.sink.SameCounts t.sink ∧ s.agenda = t.agenda

/-- The source answers each of the next `k` requests, within the interface (10_state.md R41). -/
abbrev Source.AnswersWithin (src : Source) (k : Nat) : Prop :=
  (∀ a ∈ src.script.take k, a.fits = true) ∧ (k ≤ src.script.length ∨ src.rest ≠ .silent)

/-- The sink answers each of the next `k` writes, of `m` bytes each, within the interface (10_state.md R44). -/
abbrev Sink.AnswersWithin (snk : Sink) (k m : Nat) : Prop :=
  (∀ a ∈ snk.script.take k, a.fits m = true) ∧ (k ≤ snk.script.length ∨ snk.rest ≠ .silent)

/-- An answer of 8 bytes. -/
def SourceAnswer.isFull : SourceAnswer → Bool
  | .data bytes => bytes.length == 8
  | .error _ => false
  | .dataWithError _ _ => false

/-- The answers the source gave between two states of a run. -/
def repliesSince (s t : State) : List SourceReply := t.source.log.drop s.source.log.length

/-- The writes the sink answered between two states of a run. -/
def writesSince (s t : State) : List SinkWrite := t.sink.log.drop s.sink.log.length

end Sys2Proof.Machine

namespace Sys2Proof

open Sys2Proof.Machine

/-- An instruction with its data taken away: the value, the bytes of the buffer and the discard flag. -/
def Instr.shape : Instr → Instr
  | .rdbits count _ => .rdbits count false
  | .rdbytes len buf => .rdbytes len (List.replicate buf.length 0#8)
  | .wrbits count _ => .wrbits count 0#64
  | .wrbytes len buf => .wrbytes len (List.replicate buf.length 0#8)
  | .padding => .padding
  | .flush => .flush

/-- The most source or sink requests a command makes (10_state.md R46, 42_byteadapter.md R157, R165). -/
def Instr.maxRequests : Instr → Nat
  | .rdbits _ _ => 1
  | .rdbytes len _ => (len.toNat + 7) / 8
  | .wrbits _ _ => 1
  | .wrbytes len _ => (len.toNat + 7) / 8
  | .padding => 0
  | .flush => 1

/-- The number of bytes of each write of a Writer command (10_state.md R43). -/
def Instr.writeSize (u : WriterUnit) : Instr → Nat
  | .flush => (u.valid.toNat + 7) / 8
  | .rdbits _ _ | .rdbytes _ _ | .wrbits _ _ | .wrbytes _ _ | .padding => 8

/-- In this state the command asks for an answer that does not come: at once, or, for a byte command, after some full
refills or accepted emits that do not suffice for it (60_exceptions.md R219). -/
def Instr.AwaitsSilence (s : State) : Instr → Prop
  | .rdbits count _ => count.toNat ≤ 64 ∧ s.reader.valid.toNat < count.toNat ∧ s.source.answer = none
  | .rdbytes len buf =>
    buf.length = len.toNat ∧ s.source.rest = .silent ∧ (∀ a ∈ s.source.script, a.isFull = true) ∧
      s.reader.valid.toNat + 64 * s.source.script.length < 8 * len.toNat
  | .wrbits count _ => count.toNat ≤ 64 ∧ 64 ≤ s.writer.valid.toNat + count.toNat ∧ s.sink.answer 8 = none
  | .wrbytes len buf =>
    buf.length = len.toNat ∧ s.sink.rest = .silent ∧ (∀ a ∈ s.sink.script, a = .ok) ∧
      64 * (s.sink.script.length + 1) ≤ s.writer.valid.toNat + 8 * len.toNat
  | .padding => False
  | .flush => s.writer.valid ≠ 0#6 ∧ s.sink.answer ((s.writer.valid.toNat + 7) / 8) = none

end Sys2Proof
end

