-- ==== Sys2Proof/Certificates/Slice0/Obligations.lean ====
section
/-!
DEFINITION. The statements for the provers, from the numbered rules of spec/. Each says what a command or the machine does
in every state, also in states no run reaches, unless it names a premise.
-/

open Sys2Proof Sys2Proof.Machine

/-! ### Encoding -/

/-- 30_encoding.md R76, R77: decoding the command that spells an instruction gives the instruction back, with every
operand at every value, on its own unit's port; on the other port the word is ILLEGAL. -/
def Obligations.DecodeUndoesEncode : Prop :=
  ∀ i : Instr, decode i.port (encode i) = .ok i ∧ ∃ e, decode i.port.other (encode i) = .error e

/-- 30_encoding.md R72 to R77: what a port decodes is an instruction of its unit, spelled by that very word, with the
operand or the length and buffer of the command. -/
def Obligations.EncodeUndoesDecode : Prop :=
  ∀ (p : PortId) (c : Command) (i : Instr), decode p c = .ok i →
    i.port = p ∧ (encode i).cmd = c.cmd ∧
    (∀ count value, i = .wrbits count value → value = c.operand) ∧
    (∀ len buf, i = .rdbytes len buf ∨ i = .wrbytes len buf →
      len.toNat = c.operand.toNat % 2 ^ 32 ∧ buf = c.buf)

/-- 30_encoding.md R77, R78: a word is ILLEGAL on a port exactly when it matches no row of the port's unit, and a word
that decodes on one port is ILLEGAL on the other. -/
def Obligations.IllegalExactlyWithoutRow : Prop :=
  ∀ (p : PortId) (c : Command),
    ((∃ e, decode p c = .error e) ↔ ∀ row ∈ p.rows, row.hits c.cmd = false) ∧
    (∀ i, decode p c = .ok i → ∃ e, decode p.other c = .error e)

/-- 30_encoding.md R77: no word matches two rows of the opcode map. -/
def Obligations.OpcodeRowsDoNotOverlap : Prop :=
  opcodeRows.Pairwise fun a b => ∀ w : CmdWord, ¬ (a.hits w = true ∧ b.hits w = true)

/-- 30_encoding.md R85 and 95_test_vectors.md (Decode): words written out from the encodings, and what each decodes
to. -/
def Obligations.DecodesTheWordsOfTheSpec : Prop :=
  decode .reader ⟨0x1000000D#32, 0#64, []⟩ = .ok (.rdbits 13#8 false) ∧
  decode .reader ⟨0x10010040#32, 0#64, []⟩ = .ok (.rdbits 64#8 true) ∧
  decode .writer ⟨0x20000040#32, 0x0123456789ABCDEF#64, []⟩ = .ok (.wrbits 64#8 0x0123456789ABCDEF#64) ∧
  decode .reader ⟨0x11000000#32, 3#64, [1#8, 2#8, 3#8]⟩ = .ok (.rdbytes 3#32 [1#8, 2#8, 3#8]) ∧
  decode .writer ⟨0x22000000#32, 0#64, []⟩ = .ok .padding ∧
  decode .writer ⟨0x23000000#32, 0#64, []⟩ = .ok .flush ∧
  decode .reader ⟨0x10000100#32, 0#64, []⟩ = .error .reservedBits ∧
  decode .reader ⟨0x22000000#32, 0#64, []⟩ = .error .otherUnit ∧
  decode .writer ⟨0x24000000#32, 0#64, []⟩ = .error .unassignedOp

/-- 30_encoding.md R81: each status has its own code, and the codes 5 to 7 stand for none. -/
def Obligations.StatusCodesOfTheSpec : Prop :=
  (∀ st : Status, Status.ofCode st.code = some st) ∧
  (∀ c : BitVec 3, Status.ofCode c = none ↔ 5 ≤ c.toNat) ∧
  Status.ok.code = 0#3 ∧ Status.endOfStream.code = 1#3 ∧ Status.transportError.code = 2#3 ∧
  Status.countRangeError.code = 3#3 ∧ Status.illegalCommand.code = 4#3

/-! ### RDBITS -/

/-- 40_bitreader.md R102: a count above 64 is answered CountRangeError and changes nothing else; no source request. -/
def Obligations.RdbitsRejectsCountAbove64 : Prop :=
  ∀ (s : State) (count : BitVec 8) (d : Bool), 64 < count.toNat →
    exec (.rdbits count d) s =
      .next { s with readerPort := s.readerPort.respond ⟨.countRangeError, 0#64, 0#64, ErrToken.zero, []⟩ }

/-- 40_bitreader.md R103, with the state of R104: a count the register holds is served from it, without a source
request, and the value is the top `count` bits of the content; with a count of 0 the value is 0 and the unit is as it
was. -/
def Obligations.RdbitsServedFromRegister : Prop :=
  ∀ (s : State) (count : BitVec 8) (d : Bool), count.toNat ≤ 64 → count.toNat ≤ s.reader.valid.toNat →
    let v := (s.reader.reg.toNat % 2 ^ s.reader.valid.toNat) / 2 ^ (s.reader.valid.toNat - count.toNat)
    v < 2 ^ count.toNat ∧
    exec (.rdbits count d) s =
      .next { s with
        reader := { s.reader with valid := BitVec.ofNat 7 (s.reader.valid.toNat - count.toNat) }
        readerPort := s.readerPort.respond
          ⟨.ok, BitVec.ofNat 64 count.toNat, if d then 0#64 else BitVec.ofNat 64 v, ErrToken.zero, []⟩ } ∧
    (count = 0#8 → exec (.rdbits count d) s =
      .next { s with readerPort := s.readerPort.respond ⟨.ok, 0#64, 0#64, ErrToken.zero, []⟩ })

/-- 40_bitreader.md R106: a refill that brings enough bits completes the read with the drained bits followed by the
first fresh ones, and the rest stays buffered. The value fits its `count` bits. -/
def Obligations.RdbitsRefillWithEnoughBits : Prop :=
  ∀ (s : State) (count : BitVec 8) (d : Bool) (bytes : List Byte),
    count.toNat ≤ 64 → s.reader.valid.toNat < count.toNat →
    s.source.answer = some (.data bytes) → bytes.length ≤ 8 →
    count.toNat - s.reader.valid.toNat ≤ 8 * bytes.length →
    let needed := count.toNat - s.reader.valid.toNat
    let fresh := freshBits s.reader.order bytes
    let v := (s.reader.reg.toNat % 2 ^ s.reader.valid.toNat) * 2 ^ needed + fresh / 2 ^ (8 * bytes.length - needed)
    v < 2 ^ count.toNat ∧
    exec (.rdbits count d) s =
      .next { s with
        reader := ⟨s.reader.order, BitVec.ofNat 64 fresh, BitVec.ofNat 7 (8 * bytes.length - needed)⟩
        source := s.source.answered (.data bytes)
        readerPort := s.readerPort.respond
          ⟨.ok, BitVec.ofNat 64 count.toNat, if d then 0#64 else BitVec.ofNat 64 v, ErrToken.zero, []⟩ }

/-- 40_bitreader.md R107: a refill that brings too few bits ends the read with EndOfStream and every bit obtained; all of
them are consumed. It happens only with fewer than 8 bytes. The value fits its `n` bits. -/
def Obligations.RdbitsShortReturn : Prop :=
  ∀ (s : State) (count : BitVec 8) (d : Bool) (bytes : List Byte),
    count.toNat ≤ 64 → s.reader.valid.toNat < count.toNat →
    s.source.answer = some (.data bytes) → bytes.length ≤ 8 →
    8 * bytes.length < count.toNat - s.reader.valid.toNat →
    let n := s.reader.valid.toNat + 8 * bytes.length
    let fresh := freshBits s.reader.order bytes
    let v := (s.reader.reg.toNat % 2 ^ s.reader.valid.toNat) * 2 ^ (8 * bytes.length) + fresh
    bytes.length < 8 ∧ n < count.toNat ∧ v < 2 ^ n ∧
    exec (.rdbits count d) s =
      .next { s with
        reader := ⟨s.reader.order, BitVec.ofNat 64 fresh, 0#7⟩
        source := s.source.answered (.data bytes)
        readerPort := s.readerPort.respond
          ⟨.endOfStream, BitVec.ofNat 64 n, if d then 0#64 else BitVec.ofNat 64 v, ErrToken.zero, []⟩ }

/-- 40_bitreader.md R109: a source error ends the read with TransportError and the error's token; the unit is as it
was. -/
def Obligations.RdbitsTransportErrorKeepsUnit : Prop :=
  ∀ (s : State) (count : BitVec 8) (d : Bool) (e : ErrToken),
    count.toNat ≤ 64 → s.reader.valid.toNat < count.toNat → s.source.answer = some (.error e) →
    exec (.rdbits count d) s =
      .next { s with
        source := s.source.answered (.error e)
        readerPort := s.readerPort.respond ⟨.transportError, 0#64, 0#64, e, []⟩ }

/-- 30_encoding.md R74: the discard flag makes the response's value 0 and changes nothing else. -/
def Obligations.RdbitsDiscardChangesOnlyValue : Prop :=
  ∀ (s t : State) (count : BitVec 8) (r : Response),
    exec (.rdbits count false) s = .next t → readerGave s t r →
    exec (.rdbits count true) s =
      .next { t with readerPort := s.readerPort.respond { r with value := 0#64 } }

/-- 10_state.md R48, 40_bitreader.md R115: in every outcome, the bits buffered before and the bits the source delivered
are, in order, the bits the response carries and the bits buffered after. No bit is lost, repeated or reordered. -/
def Obligations.RdbitsConservesTheStream : Prop :=
  ∀ (s t : State) (count : BitVec 8) (r : Response),
    exec (.rdbits count false) s = .next t → readerGave s t r →
    let fresh := deliveredBytes (repliesSince s t)
    readerContent s.reader * 2 ^ (8 * fresh.length) + freshBits s.reader.order fresh =
      r.value.toNat * 2 ^ t.reader.valid.toNat + readerContent t.reader ∧
    s.reader.valid.toNat + 8 * fresh.length = r.n.toNat + t.reader.valid.toNat

/-- 40_bitreader.md R105, R114: a bit read makes one source request when its count is in range and above the bits
buffered, and none otherwise. -/
def Obligations.RdbitsAsksOnlyWhenShort : Prop :=
  ∀ (s t : State) (count : BitVec 8) (d : Bool),
    exec (.rdbits count d) s = .next t →
    (repliesSince s t).length =
      if s.reader.valid.toNat < count.toNat ∧ count.toNat ≤ 64 then 1 else 0

/-- 40_bitreader.md R116: after an EndOfStream from a source that keeps its contract, the register is empty, every later
read of 1 to 64 bits asks the source again and is answered EndOfStream with nothing, and a read of 0 bits is OK. -/
def Obligations.RdbitsAfterEndOfStream : Prop :=
  ∀ (s t : State) (count : BitVec 8) (d : Bool) (r : Response) (bytes : List Byte),
    s.source.Streams bytes → exec (.rdbits count d) s = .next t → readerGave s t r → r.status = .endOfStream →
    t.reader.valid = 0#7 ∧ t.source.Streams [] ∧
    (∀ (c : BitVec 8) (d' : Bool), 1 ≤ c.toNat → c.toNat ≤ 64 →
      ∃ u, exec (.rdbits c d') t = .next u ∧ u.reader.valid = 0#7 ∧
        u.source.log = t.source.log ++ [.data []] ∧
        readerGave t u ⟨.endOfStream, 0#64, 0#64, ErrToken.zero, []⟩) ∧
    (∀ d' : Bool, exec (.rdbits 0#8 d') t =
      .next { t with readerPort := t.readerPort.respond ⟨.ok, 0#64, 0#64, ErrToken.zero, []⟩ })

/-! ### RDBYTES -/

/-- 42_byteadapter.md R150 to R155, for a buffer of one chunk: RDBYTES of 1 to 8 bytes does exactly what RDBITS of as
many bits does, and stores what that read brought. -/
def Obligations.RdbytesOfOneChunk : Prop :=
  ∀ (s t : State) (len : BitVec 32) (buf : List Byte) (r : Response),
    1 ≤ len.toNat → len.toNat ≤ 8 → buf.length = len.toNat →
    exec (.rdbits (BitVec.ofNat 8 (8 * len.toNat)) false) s = .next t → readerGave s t r →
    ∃ q, exec (.rdbytes len buf) s = .next { t with readerPort := s.readerPort.respond q } ∧
      q.value = 0#64 ∧ q.status = r.status ∧ q.err = r.err ∧ q.buf.length = buf.length ∧
      q.buf.drop q.n.toNat = buf.drop q.n.toNat ∧
      (r.status = .ok → q.n.toNat = len.toNat ∧ packBytes q.buf = r.value.toNat) ∧
      (r.status = .endOfStream → q.n.toNat = r.n.toNat / 8 ∧
        packBytes (q.buf.take q.n.toNat) = r.value.toNat / 2 ^ (r.n.toNat % 8)) ∧
      (r.status = .transportError → q.n = 0#64)

/-- 42_byteadapter.md R154, R155, R159, 10_state.md R48: in every outcome of RDBYTES, the bits buffered before and the
bits the source delivered are, in order, the `n` bytes stored, then (after EndOfStream only) at most 7 bits lost, then
the bits buffered after. The buffer's later positions keep their values. -/
def Obligations.RdbytesConservesTheStream : Prop :=
  ∀ (s t : State) (len : BitVec 32) (buf : List Byte) (r : Response),
    exec (.rdbytes len buf) s = .next t → readerGave s t r →
    let fresh := deliveredBytes (repliesSince s t)
    ∃ m lost : Nat, m < 8 ∧ lost < 2 ^ m ∧ (r.status ≠ .endOfStream → m = 0) ∧
      (r.status = .endOfStream → t.reader.valid = 0#7) ∧
      readerContent s.reader * 2 ^ (8 * fresh.length) + freshBits s.reader.order fresh =
        (packBytes (r.buf.take r.n.toNat) * 2 ^ m + lost) * 2 ^ t.reader.valid.toNat + readerContent t.reader ∧
      s.reader.valid.toNat + 8 * fresh.length = 8 * r.n.toNat + m + t.reader.valid.toNat ∧
      r.buf.length = buf.length ∧ r.buf.drop r.n.toNat = buf.drop r.n.toNat

/-- 42_byteadapter.md R154, R159: from a source that hands out a finite byte list, RDBYTES completes: OK with the next
`len` bytes when that many are left, and otherwise EndOfStream with all the whole bytes that are left; the bytes are
the next bits of the stream, and the rest of the buffer is unchanged. -/
def Obligations.RdbytesFromStream : Prop :=
  ∀ (s : State) (len : BitVec 32) (buf bytes : List Byte),
    buf.length = len.toNat → s.source.Streams bytes →
    let total := s.reader.valid.toNat + 8 * bytes.length
    let bits := readerContent s.reader * 2 ^ (8 * bytes.length) + freshBits s.reader.order bytes
    let n := min len.toNat (total / 8)
    ∃ t r, exec (.rdbytes len buf) s = .next t ∧ readerGave s t r ∧
      r.status = (if 8 * len.toNat ≤ total then .ok else .endOfStream) ∧ r.n.toNat = n ∧
      r.value = 0#64 ∧ r.err = ErrToken.zero ∧ r.buf.length = buf.length ∧
      packBytes (r.buf.take n) = bits / 2 ^ (total - 8 * n) ∧ r.buf.drop n = buf.drop n

/-- 42_byteadapter.md R155, R201: when RDBYTES ends with TransportError, the last answer of the source was that error, and
the count is of whole 8-byte chunks. -/
def Obligations.RdbytesTransportErrorReportsChunks : Prop :=
  ∀ (s t : State) (len : BitVec 32) (buf : List Byte) (r : Response),
    exec (.rdbytes len buf) s = .next t → readerGave s t r → r.status = .transportError →
    r.n.toNat % 8 = 0 ∧ r.n.toNat < len.toNat ∧ (repliesSince s t).getLast? = some (.error r.err)

/-! ### WRBITS -/

/-- 41_bitwriter.md R121: a count above 64 is answered CountRangeError and changes nothing else; no sink request. -/
def Obligations.WrbitsRejectsCountAbove64 : Prop :=
  ∀ (s : State) (count : BitVec 8) (value : Word), 64 < count.toNat →
    exec (.wrbits count value) s =
      .next { s with writerPort := s.writerPort.respond ⟨.countRangeError, 0#64, 0#64, ErrToken.zero, []⟩ }

/-- 41_bitwriter.md R122: a count below the room is shifted into the register's tail, without a sink request; the new
count is at most 63, and a count of 0 changes neither content nor count. -/
def Obligations.WrbitsWithRoom : Prop :=
  ∀ (s : State) (count : BitVec 8) (value : Word), count.toNat < 64 - s.writer.valid.toNat →
    let content' := (s.writer.reg.toNat % 2 ^ s.writer.valid.toNat) * 2 ^ count.toNat + value.toNat % 2 ^ count.toNat
    ∃ u : WriterUnit,
      exec (.wrbits count value) s =
        .next { s with
          writer := u
          writerPort := s.writerPort.respond ⟨.ok, BitVec.ofNat 64 count.toNat, 0#64, ErrToken.zero, []⟩ } ∧
      u.order = s.writer.order ∧ u.reg.toNat = content' ∧ u.valid.toNat = s.writer.valid.toNat + count.toNat ∧
      u.valid.toNat ≤ 63 ∧ writerContent u = content' ∧
      (count = 0#8 → writerContent u = writerContent s.writer ∧ u.valid = s.writer.valid)

/-- 41_bitwriter.md R124, R125: a count that fills the register emits the content followed by the oldest bits of the
value as one write of 8 bytes, most significant byte first, each through the byte transform; accepted, the leftover
bits are the new content. -/
def Obligations.WrbitsFillAccepted : Prop :=
  ∀ (s : State) (count : BitVec 8) (value : Word),
    count.toNat ≤ 64 → 64 - s.writer.valid.toNat ≤ count.toNat → s.sink.answer 8 = some .ok →
    let take := 64 - s.writer.valid.toNat
    let rest := count.toNat - take
    let x := value.toNat % 2 ^ count.toNat
    let full := (s.writer.reg.toNat % 2 ^ s.writer.valid.toNat) * 2 ^ take + x / 2 ^ rest
    ∃ bytes : List Byte, bytes.length = 8 ∧ full < 2 ^ 64 ∧ rest ≤ 63 ∧
      (∀ j, j < 8 → bytes[j]? = some (xform s.writer.order (BitVec.ofNat 8 (full / 2 ^ (56 - 8 * j))))) ∧
      exec (.wrbits count value) s =
        .next { s with
          writer := ⟨s.writer.order, BitVec.ofNat 64 (x % 2 ^ rest), BitVec.ofNat 6 rest⟩
          sink := s.sink.answered bytes .ok
          writerPort := s.writerPort.respond ⟨.ok, BitVec.ofNat 64 count.toNat, 0#64, ErrToken.zero, []⟩ }

/-- 41_bitwriter.md R124, R126: when the sink fails on the fill, the 8 bytes written are those of the fill, the response is
TransportError with the sink's byte count and token, and the unit is as it was. -/
def Obligations.WrbitsFillFailedKeepsUnit : Prop :=
  ∀ (s : State) (count : BitVec 8) (value : Word) (acc : Nat) (e : ErrToken),
    count.toNat ≤ 64 → 64 - s.writer.valid.toNat ≤ count.toNat → s.sink.answer 8 = some (.error acc e) → acc ≤ 8 →
    let take := 64 - s.writer.valid.toNat
    let x := value.toNat % 2 ^ count.toNat
    let full := (s.writer.reg.toNat % 2 ^ s.writer.valid.toNat) * 2 ^ take + x / 2 ^ (count.toNat - take)
    ∃ bytes : List Byte, bytes.length = 8 ∧
      (∀ j, j < 8 → bytes[j]? = some (xform s.writer.order (BitVec.ofNat 8 (full / 2 ^ (56 - 8 * j))))) ∧
      exec (.wrbits count value) s =
        .next { s with
          sink := s.sink.answered bytes (.error acc e)
          writerPort := s.writerPort.respond ⟨.transportError, BitVec.ofNat 64 acc, 0#64, e, []⟩ }

/-- 10_state.md R47: an OK write puts its bits behind the bits buffered before; what the sink accepted and what is
buffered after are, in order, those bits. Any other outcome leaves the unit as it was and nothing accepted. -/
def Obligations.WrbitsConservesTheStream : Prop :=
  ∀ (s t : State) (count : BitVec 8) (value : Word) (r : Response),
    exec (.wrbits count value) s = .next t → writerGave s t r →
    let out := acceptedBytes (writesSince s t)
    (r.status = .ok →
      writerContent s.writer * 2 ^ count.toNat + value.toNat % 2 ^ count.toNat =
        freshBits s.writer.order out * 2 ^ t.writer.valid.toNat + writerContent t.writer ∧
      s.writer.valid.toNat + count.toNat = 8 * out.length + t.writer.valid.toNat ∧ r.n.toNat = count.toNat) ∧
    (r.status ≠ .ok → t.writer = s.writer ∧ out = [])

/-- 20_memory.md R63, 41_bitwriter.md R128: a bit write makes one sink write, of 8 bytes, when its count is in range and
fills the register, and none otherwise. -/
def Obligations.WrbitsEmitsOnlyFullRegisters : Prop :=
  ∀ (s t : State) (count : BitVec 8) (value : Word),
    exec (.wrbits count value) s = .next t →
    (writesSince s t).map (fun w => w.bytes.length) =
      if count.toNat ≤ 64 ∧ 64 ≤ s.writer.valid.toNat + count.toNat then [8] else []

/-! ### PADDING and FLUSH -/

/-- 41_bitwriter.md R130: PADDING answers the bits to the next byte boundary and changes nothing else; it is spelled by
the word 0x22000000 and no other. -/
def Obligations.PaddingCountsBitsToBoundary : Prop :=
  (∀ s : State, exec .padding s =
    .next { s with
      writerPort := s.writerPort.respond
        ⟨.ok, BitVec.ofNat 64 ((8 - s.writer.valid.toNat % 8) % 8), 0#64, ErrToken.zero, []⟩ }) ∧
  (∀ c : Command, decode .writer c = .ok .padding ↔ c.cmd = 0x22000000#32)

/-- 41_bitwriter.md R130, R131: the answer of PADDING is the least number of bits that reaches a byte boundary. -/
def Obligations.PaddingIsLeastAlignment : Prop :=
  ∀ (s t : State) (r : Response), exec .padding s = .next t → writerGave s t r →
    (s.writer.valid.toNat + r.n.toNat) % 8 = 0 ∧
    (∀ q, (s.writer.valid.toNat + q) % 8 = 0 → r.n.toNat ≤ q) ∧ r.n.toNat ≤ 7

/-- 30_encoding.md R84, ALIGNW: after PADDING, a write of as many zero bits that succeeds leaves the Writer at a byte
boundary. -/
def Obligations.AlignwReachesByteBoundary : Prop :=
  ∀ (s t u : State) (r q : Response),
    exec .padding s = .next t → writerGave s t r →
    exec (.wrbits (r.n.setWidth 8) 0#64) t = .next u → writerGave t u q → q.status = .ok →
    u.writer.valid.toNat % 8 = 0

/-- 41_bitwriter.md R136: FLUSH of an empty Writer is answered OK and changes nothing else; so after an OK flush a second
one is a no-op and emits nothing. -/
def Obligations.FlushOfEmptyWriterEmitsNothing : Prop :=
  (∀ s : State, s.writer.valid = 0#6 →
    exec .flush s = .next { s with writerPort := s.writerPort.respond ⟨.ok, 0#64, 0#64, ErrToken.zero, []⟩ }) ∧
  (∀ (s t : State) (r : Response), exec .flush s = .next t → writerGave s t r → r.status = .ok →
    exec .flush t = .next { t with writerPort := t.writerPort.respond ⟨.ok, 0#64, 0#64, ErrToken.zero, []⟩ })

/-- 41_bitwriter.md R133, R134: FLUSH emits the content, zero padded to whole bytes, as one write, most significant byte
first, each byte through the byte transform; accepted, the count is 0 and the register is not written. -/
def Obligations.FlushAccepted : Prop :=
  ∀ s : State, s.writer.valid ≠ 0#6 →
    let p := (8 - s.writer.valid.toNat % 8) % 8
    let nb := (s.writer.valid.toNat + 7) / 8
    let y := (s.writer.reg.toNat % 2 ^ s.writer.valid.toNat) * 2 ^ p
    s.sink.answer nb = some .ok →
    ∃ bytes : List Byte, bytes.length = nb ∧ 1 ≤ nb ∧ nb ≤ 8 ∧ y < 2 ^ (8 * nb) ∧
      (∀ j, j < nb → bytes[j]? = some (xform s.writer.order (BitVec.ofNat 8 (y / 2 ^ (8 * (nb - 1 - j)))))) ∧
      exec .flush s =
        .next { s with
          writer := { s.writer with valid := 0#6 }
          sink := s.sink.answered bytes .ok
          writerPort := s.writerPort.respond ⟨.ok, 0#64, 0#64, ErrToken.zero, []⟩ }

/-- 41_bitwriter.md R133, R135: when the sink fails on a flush, the bytes written are those of the flush, the response is
TransportError with the sink's byte count and token, and the unit is as it was. -/
def Obligations.FlushFailedKeepsUnit : Prop :=
  ∀ (s : State) (acc : Nat) (e : ErrToken), s.writer.valid ≠ 0#6 →
    let p := (8 - s.writer.valid.toNat % 8) % 8
    let nb := (s.writer.valid.toNat + 7) / 8
    let y := (s.writer.reg.toNat % 2 ^ s.writer.valid.toNat) * 2 ^ p
    s.sink.answer nb = some (.error acc e) → acc ≤ nb →
    ∃ bytes : List Byte, bytes.length = nb ∧
      (∀ j, j < nb → bytes[j]? = some (xform s.writer.order (BitVec.ofNat 8 (y / 2 ^ (8 * (nb - 1 - j)))))) ∧
      exec .flush s =
        .next { s with
          sink := s.sink.answered bytes (.error acc e)
          writerPort := s.writerPort.respond ⟨.transportError, BitVec.ofNat 64 acc, 0#64, e, []⟩ }

/-- 10_state.md R47, 41_bitwriter.md R139: after an OK flush the Writer is empty, and what the sink accepted is exactly
the bits buffered before, followed by the padding zeros. -/
def Obligations.FlushDeliversAllBits : Prop :=
  ∀ (s t : State) (r : Response), exec .flush s = .next t → writerGave s t r → r.status = .ok →
    let out := acceptedBytes (writesSince s t)
    t.writer.valid = 0#6 ∧
    8 * out.length = s.writer.valid.toNat + (8 - s.writer.valid.toNat % 8) % 8 ∧
    freshBits s.writer.order out = writerContent s.writer * 2 ^ ((8 - s.writer.valid.toNat % 8) % 8)

/-! ### WRBYTES -/

/-- 42_byteadapter.md R161, R162, R164: into a sink that accepts every write, WRBYTES completes, appends all `len` bytes
in order and does not flush: every write is a full register of 8 bytes, and the bits that do not fill one stay. -/
def Obligations.WrbytesIntoAcceptingSink : Prop :=
  ∀ (s : State) (len : BitVec 32) (buf : List Byte), buf.length = len.toNat → s.sink.Accepts →
    ∃ t, exec (.wrbytes len buf) s = .next t ∧
      writerGave s t ⟨.ok, BitVec.ofNat 64 len.toNat, 0#64, ErrToken.zero, []⟩ ∧
      t.writer.order = s.writer.order ∧ t.writer.valid.toNat = (s.writer.valid.toNat + 8 * len.toNat) % 64 ∧
      (writesSince s t).length = (s.writer.valid.toNat + 8 * len.toNat) / 64 ∧
      (∀ w ∈ writesSince s t, w.bytes.length = 8 ∧ w.reply = .ok) ∧
      writerContent s.writer * 2 ^ (8 * len.toNat) + packBytes buf =
        freshBits s.writer.order (acceptedBytes (writesSince s t)) * 2 ^ t.writer.valid.toNat + writerContent t.writer

/-- 42_byteadapter.md R163, 10_state.md R47: in every outcome of WRBYTES, the bits buffered before and the first `n` bytes
of the buffer are, in order, what the sink accepted and what is buffered after. On TransportError the count is of whole
8-byte chunks and the last write was refused with that error. -/
def Obligations.WrbytesConservesTheStream : Prop :=
  ∀ (s t : State) (len : BitVec 32) (buf : List Byte) (r : Response),
    exec (.wrbytes len buf) s = .next t → writerGave s t r →
    let out := acceptedBytes (writesSince s t)
    writerContent s.writer * 2 ^ (8 * r.n.toNat) + packBytes (buf.take r.n.toNat) =
      freshBits s.writer.order out * 2 ^ t.writer.valid.toNat + writerContent t.writer ∧
    s.writer.valid.toNat + 8 * r.n.toNat = 8 * out.length + t.writer.valid.toNat ∧
    ((r.status = .ok ∧ r.n.toNat = len.toNat) ∨
      (r.status = .transportError ∧ r.n.toNat % 8 = 0 ∧ r.n.toNat < len.toNat ∧
        ∃ w acc, (writesSince s t).getLast? = some w ∧ w.reply = .error acc r.err))

/-- 42_byteadapter.md R167: when a Writer with nothing buffered runs WRBYTES and FLUSH and the sink answers each write with
`Ok`, a Reader from reset with the same bit order, whose source hands out the emitted bytes, gives the buffer back by
RDBYTES. -/
def Obligations.WriteFlushReadRoundTrip : Prop :=
  ∀ (s t u : State) (len : BitVec 32) (bytes blank : List Byte),
    s.writer.valid = 0#6 → exec (.wrbytes len bytes) s = .next t → exec .flush t = .next u →
    (∀ w ∈ writesSince s u, w.reply = .ok) → blank.length = len.toNat →
    let back : State :=
      { u with
        reader := ⟨s.writer.order, 0#64, 0#7⟩
        source := ⟨[], .stream ((writesSince s u).flatMap fun w => w.bytes), u.source.log⟩ }
    ∃ v, exec (.rdbytes len blank) back = .next v ∧
      readerGave back v ⟨.ok, BitVec.ofNat 64 len.toNat, 0#64, ErrToken.zero, bytes⟩

/-! ### Both byte commands -/

/-- 42_byteadapter.md R156, R165: a length of 0 makes no internal command and no request, and is OK. -/
def Obligations.ByteCommandsOfNothing : Prop :=
  ∀ s : State,
    exec (.rdbytes 0#32 []) s =
      .next { s with readerPort := s.readerPort.respond ⟨.ok, 0#64, 0#64, ErrToken.zero, []⟩ } ∧
    exec (.wrbytes 0#32 []) s =
      .next { s with writerPort := s.writerPort.respond ⟨.ok, 0#64, 0#64, ErrToken.zero, []⟩ }

/-- 42_byteadapter.md R157, R165: a byte command of `len` bytes makes at most `ceil(len/8)` source or sink requests. -/
def Obligations.ByteCommandsBoundTheirRequests : Prop :=
  ∀ (s t : State) (len : BitVec 32) (buf : List Byte),
    (exec (.rdbytes len buf) s = .next t → (repliesSince s t).length ≤ (len.toNat + 7) / 8) ∧
    (exec (.wrbytes len buf) s = .next t → (writesSince s t).length ≤ (len.toNat + 7) / 8)

/-! ### Bit order -/

/-- 43_bitordertable.md R170, R171: `reverseBits(b)[i] = b[7 - i]`, and the table of 256 entries maps each byte to it. -/
def Obligations.ReverseBitsMirrorsPositions : Prop :=
  (∀ (b : Byte) (i : Nat), i < 8 → (reverseBits b).getLsbD i = b.getLsbD (7 - i)) ∧
  (∀ b : Byte, bitOrderTable[b.toNat]? = some (reverseBits b)) ∧ bitOrderTable.length = 256

/-- 43_bitordertable.md R173: bit reversal and the transform are their own inverses, so bytes emitted under an order and
loaded under the same order reach the register as they left it. -/
def Obligations.TransformUndoesItself : Prop :=
  (∀ b : Byte, reverseBits (reverseBits b) = b) ∧ (∀ (o : BitOrder) (b : Byte), xform o (xform o b) = b) ∧
  (∀ (o : BitOrder) (m y : Nat), freshBits o (emittedBytes o m y) = y % 2 ^ (8 * m))

/-- 20_memory.md R53: machines that agree in every count, status, request and turn, whatever their bit orders,
configuration inputs, register values, response values, buffers and emitted bytes, stay so under every command, also when
the two commands differ in their data, and under every step; a command that stops on one stops alike on the other. Such are
two machines from reset under any configuration inputs, and a machine and itself with other bit orders. -/
def Obligations.BitOrderLeavesCountsAlone : Prop :=
  (∀ o o' q q' : BitOrder, (State.resetWith o o').SameCounts (State.resetWith q q')) ∧
  (∀ (s : State) (o o' : BitOrder),
    s.SameCounts { s with reader := { s.reader with order := o }, writer := { s.writer with order := o' } }) ∧
  (∀ (s s' : State) (i i' : Instr), s.SameCounts s' → i.shape = i'.shape →
    (∀ t, exec i s = .next t → ∃ t', exec i' s' = .next t' ∧ t.SameCounts t') ∧
    (∀ f, exec i s = .fault f → exec i' s' = .fault f) ∧
    (∀ r, exec i s = .refused r → exec i' s' = .refused r)) ∧
  (∀ s s' : State, s.SameCounts s' →
    (∀ t, step s = .next t → ∃ t', step s' = .next t' ∧ t.SameCounts t') ∧
    (∀ r, step s = .refused r → step s' = .refused r))

/-! ### The frames of the commands -/

/-- 00_scope.md R3, 10_state.md R34, R35, R46: a Reader command gives exactly one response on the Reader's port, and touches nothing
but the Reader's register and count, its source and its port. -/
def Obligations.ReaderCommandFrame : Prop :=
  ∀ (s t : State) (i : Instr), i.port = .reader → exec i s = .next t →
    t.writer = s.writer ∧ t.writerPort = s.writerPort ∧ t.sink = s.sink ∧ t.cfgOrderR = s.cfgOrderR ∧
    t.cfgOrderW = s.cfgOrderW ∧ t.agenda = s.agenda ∧ t.reader.order = s.reader.order ∧
    (∃ r, t.readerPort = ⟨s.readerPort.pending, none, s.readerPort.responses ++ [r]⟩) ∧
    s.source.log <+: t.source.log

/-- 00_scope.md R3, 10_state.md R34, R35, R46: a Writer command gives exactly one response on the Writer's port, and touches nothing
but the Writer's register and count, its sink and its port. -/
def Obligations.WriterCommandFrame : Prop :=
  ∀ (s t : State) (i : Instr), i.port = .writer → exec i s = .next t →
    t.reader = s.reader ∧ t.readerPort = s.readerPort ∧ t.source = s.source ∧ t.cfgOrderR = s.cfgOrderR ∧
    t.cfgOrderW = s.cfgOrderW ∧ t.agenda = s.agenda ∧ t.writer.order = s.writer.order ∧
    (∃ r, t.writerPort = ⟨s.writerPort.pending, none, s.writerPort.responses ++ [r]⟩) ∧
    s.sink.log <+: t.sink.log

/-- 60_exceptions.md R205: a TransportError of RDBITS, WRBITS or FLUSH leaves the unit's whole state as it was. -/
def Obligations.TransportErrorKeepsUnit : Prop :=
  ∀ (s t : State) (i : Instr) (r : Response), exec i s = .next t → r.status = .transportError →
    (∀ count d, i = .rdbits count d → readerGave s t r → t.reader = s.reader) ∧
    (∀ count value, i = .wrbits count value → writerGave s t r → t.writer = s.writer) ∧
    (i = .flush → writerGave s t r → t.writer = s.writer)

/-- 10_state.md R25: machines that differ only in the register bits above the counts cannot be told apart: every command
ends the same way, with the same responses and the same traffic, and leaves machines that again differ only there. -/
def Obligations.GarbageBitsCannotBeSeen : Prop :=
  ∀ (s s' : State) (i : Instr), s.SameButGarbage s' →
    (∀ t, exec i s = .next t → ∃ t', exec i s' = .next t' ∧ t.SameButGarbage t') ∧
    (∀ f, exec i s = .fault f → exec i s' = .fault f) ∧
    (∀ r, exec i s = .refused r → exec i s' = .refused r)

/-- 93_implementation_defined.md I8 (treatment `refuse`) and 10_state.md R33: an answer outside the interface, to a request
that a command makes, is refused by name: of the source to RDBITS, and to RDBYTES after any full refills; of the sink to
the fill of WRBITS, to FLUSH, and to WRBYTES after any accepted emits. A buffer that does not hold `len` bytes is refused
too. That a model refuses the answers is the spec's own treatment; the refusal of the buffer is log entry 8. -/
def Obligations.OutsideInterfaceIsRefused : Prop :=
  ∀ s : State,
    (∀ (count : BitVec 8) (d : Bool) (a : SourceAnswer), count.toNat ≤ 64 → s.reader.valid.toNat < count.toNat →
      s.source.answer = some a → a.fits = false →
      exec (.rdbits count d) s = .refused .sourceAnswerOutsideInterface) ∧
    (∀ (len : BitVec 32) (buf : List Byte) (good rest : List SourceAnswer) (bad : SourceAnswer),
      buf.length = len.toNat → s.source.script = good ++ bad :: rest → (∀ a ∈ good, a.isFull = true) →
      bad.fits = false → s.reader.valid.toNat + 64 * good.length < 8 * len.toNat →
      exec (.rdbytes len buf) s = .refused .sourceAnswerOutsideInterface) ∧
    (∀ (count : BitVec 8) (value : Word) (a : SinkAnswer), count.toNat ≤ 64 → 64 ≤ s.writer.valid.toNat + count.toNat →
      s.sink.answer 8 = some a → a.fits 8 = false →
      exec (.wrbits count value) s = .refused .sinkAnswerOutsideInterface) ∧
    (∀ (len : BitVec 32) (buf : List Byte) (good rest : List SinkAnswer) (bad : SinkAnswer),
      buf.length = len.toNat → s.sink.script = good ++ bad :: rest → (∀ a ∈ good, a = .ok) →
      bad.fits 8 = false → 64 * (good.length + 1) ≤ s.writer.valid.toNat + 8 * len.toNat →
      exec (.wrbytes len buf) s = .refused .sinkAnswerOutsideInterface) ∧
    (∀ a : SinkAnswer, s.writer.valid ≠ 0#6 →
      s.sink.answer ((s.writer.valid.toNat + 7) / 8) = some a → a.fits ((s.writer.valid.toNat + 7) / 8) = false →
      exec .flush s = .refused .sinkAnswerOutsideInterface) ∧
    (∀ (len : BitVec 32) (buf : List Byte), buf.length ≠ len.toNat →
      exec (.rdbytes len buf) s = .refused .bufferNotLen ∧ exec (.wrbytes len buf) s = .refused .bufferNotLen)

/-- 10_state.md R34, R41, R44, 60_exceptions.md R206: a well-formed command of either unit completes with one response in
every state in which its own source or sink answers each request it can make, within the interface, whatever the answers
are. -/
def Obligations.WellFormedCommandsComplete : Prop :=
  ∀ (s : State) (i : Instr), i.wellFormed = true →
    (i.port = .reader → s.source.AnswersWithin i.maxRequests →
      ∃ t r, exec i s = .next t ∧ readerGave s t r ∧ t.writerPort = s.writerPort ∧ r.status ≠ .illegalCommand) ∧
    (i.port = .writer → s.sink.AnswersWithin i.maxRequests (i.writeSize s.writer) →
      ∃ t r, exec i s = .next t ∧ writerGave s t r ∧ t.readerPort = s.readerPort ∧ r.status ≠ .illegalCommand)

/-! ### The machine -/

/-- 10_state.md R28, R46, 00_scope.md R19: on a unit's turn, when the command it takes up decodes to an instruction, the
step is `exec` of it with the command accepted and the turn used up. The third clause is the model's choice (log entry 9): a
fault of `exec` (no answer yet) leaves the unit waiting with that command, and unit and transport as they were, also for a
byte command part way through. -/
def Obligations.StepRunsTheDecodedCommand : Prop :=
  ∀ (s : State) (p : PortId) (ts : List Turn) (c : Command) (port : Port) (i : Instr),
    s.agenda = .serve p :: ts → (s.port p).accept = some (c, port) → decode p c = .ok i →
    let s' := { s.setPort p port with agenda := ts }
    (∀ t, exec i s' = .next t → step s = .next t) ∧
    (∀ r, exec i s' = .refused r → step s = .refused r) ∧
    (∀ f, exec i s' = .fault f → step s = .next s')

/-- 30_encoding.md R78: on a unit's turn, a word that does not decode is answered IllegalCommand with `n = 0` and
`value = 0`; no other state changes and no request is made. -/
def Obligations.IllegalWordIsAnswered : Prop :=
  ∀ (s : State) (p : PortId) (ts : List Turn) (c : Command) (port : Port) (e : DecodeError),
    s.agenda = .serve p :: ts → (s.port p).accept = some (c, port) → decode p c = .error e →
    step s = .next
      { s.setPort p (port.respond ⟨.illegalCommand, 0#64, 0#64, ErrToken.zero, []⟩) with agenda := ts }

/-- 70_reset_and_hazards.md R232: with no command on its port a unit's turn changes nothing. The clause that with no turn
left a step changes nothing is the model's choice (log entries 1 and 10). -/
def Obligations.IdleUnitDoesNothing : Prop :=
  ∀ s : State,
    (s.agenda = [] → step s = .next s) ∧
    (∀ p ts, s.agenda = .serve p :: ts → (s.port p).accept = none → step s = .next { s with agenda := ts })

/-- 60_exceptions.md R219, 70_reset_and_hazards.md R245: a command of either unit that needs an answer which does not come
stays in progress, and the port takes no other command. RDBITS, the fill of WRBITS and FLUSH wait at their one request;
RDBYTES and WRBYTES at once or after full refills or accepted emits that do not suffice. That the wait is a step which
leaves unit, transport and responses as they were, also for a byte command part way through, is the model's choice (log
entry 9). -/
def Obligations.SilentTransportKeepsUnitWaiting : Prop :=
  ∀ (s : State) (p : PortId) (ts : List Turn) (c : Command) (port : Port) (i : Instr),
    s.agenda = .serve p :: ts → (s.port p).accept = some (c, port) → decode p c = .ok i → i.AwaitsSilence s →
    step s = .next { s.setPort p port with agenda := ts } ∧ port.current = some c ∧ port.accept = some (c, port)

/-- 10_state.md R37, 70_reset_and_hazards.md R235: driving a unit's configuration input writes that input, and attaching a
source or a sink replaces what it will answer; neither writes anything else (that the record of the requests answered
before is kept, and that this holds also while a command waits, are the model's choices, log entries 3 and 14). No step but such a drive changes a configuration input. -/
def Obligations.ConfigureAndAttachTurns : Prop :=
  ∀ (s : State) (ts : List Turn),
    (∀ o, s.agenda = .configure .reader o :: ts → step s = .next { s with cfgOrderR := o, agenda := ts }) ∧
    (∀ o, s.agenda = .configure .writer o :: ts → step s = .next { s with cfgOrderW := o, agenda := ts }) ∧
    (∀ script rest, s.agenda = .attachSource script rest :: ts →
      step s = .next { s with source := ⟨script, rest, s.source.log⟩, agenda := ts }) ∧
    (∀ script rest, s.agenda = .attachSink script rest :: ts →
      step s = .next { s with sink := ⟨script, rest, s.sink.log⟩, agenda := ts }) ∧
    (∀ t, step s = .next t →
      ((∀ o, s.agenda.head? ≠ some (.configure .reader o)) → t.cfgOrderR = s.cfgOrderR) ∧
      ((∀ o, s.agenda.head? ≠ some (.configure .writer o)) → t.cfgOrderW = s.cfgOrderW))

/-- 70_reset_and_hazards.md R231, R232: the reset of an idle unit gives it the stated values and its order from its
configuration input, makes no request, and leaves everything else alone. -/
def Obligations.ResetConstructsIdleUnit : Prop :=
  ∀ (s : State) (ts : List Turn),
    (s.agenda = .reset .reader :: ts → s.readerPort.current = none →
      step s = .next { s with reader := ⟨s.cfgOrderR, 0#64, 0#7⟩, agenda := ts }) ∧
    (s.agenda = .reset .writer :: ts → s.writerPort.current = none →
      step s = .next { s with writer := ⟨s.cfgOrderW, 0#64, 0#6⟩, agenda := ts })

/-- 70_reset_and_hazards.md R231, R233: a reset during a command ends it without a response and leaves the unit in its
reset state; the other unit is not touched. That the commands still pending are kept (log entry 2), and that the records of
answered requests are as they were, without those of a byte command part way (log entry 6), are the model's choices. -/
def Obligations.ResetEndsCommandWithoutResponse : Prop :=
  ∀ (s : State) (p : PortId) (ts : List Turn) (c : Command),
    s.agenda = .reset p :: ts → (s.port p).current = some c →
    ∃ t, step s = .next t ∧ (t.port p).current = none ∧ (t.port p).pending = (s.port p).pending ∧
      (t.port p).responses = (s.port p).responses ∧ t.port p.other = s.port p.other ∧
      t.source.log = s.source.log ∧ t.sink.log = s.sink.log ∧
      (p = .reader → t.reader = ⟨s.cfgOrderR, 0#64, 0#7⟩ ∧ t.writer = s.writer ∧ t.sink = s.sink) ∧
      (p = .writer → t.writer = ⟨s.cfgOrderW, 0#64, 0#6⟩ ∧ t.reader = s.reader ∧ t.source = s.source)

/-- 70_reset_and_hazards.md R231, R232, 00_scope.md R10: what reset leaves in the two units, with the configuration inputs
at their default; and the state after reset, under any configuration inputs, meets the invariants that every step keeps
(10_state.md R22, R41, R43, 30_encoding.md R80). That no response is given and no request answered yet is the model's choice
(log entries 2 and 3). -/
def Obligations.ResetState : Prop :=
  State.reset.reader = ⟨.mostSignificantFirst, 0#64, 0#7⟩ ∧
  State.reset.writer = ⟨.mostSignificantFirst, 0#64, 0#6⟩ ∧
  State.reset.cfgOrderR = .mostSignificantFirst ∧ State.reset.cfgOrderW = .mostSignificantFirst ∧
  State.reset.readerPort.current = none ∧ State.reset.writerPort.current = none ∧
  (∀ o o' : BitOrder,
    (State.resetWith o o').reader = ⟨o, 0#64, 0#7⟩ ∧ (State.resetWith o o').writer = ⟨o', 0#64, 0#6⟩ ∧
    (State.resetWith o o').ReaderBelow64 ∧ (State.resetWith o o').TrafficFits ∧ (State.resetWith o o').ResponsesFit)

/-- 10_state.md R26: a unit's order is written only by its own reset, and then from its configuration input. -/
def Obligations.OrderChangesOnlyByReset : Prop :=
  ∀ s t : State, step s = .next t →
    (s.agenda.head? ≠ some (.reset .reader) → t.reader.order = s.reader.order) ∧
    (s.agenda.head? = some (.reset .reader) → t.reader.order = s.cfgOrderR) ∧
    (s.agenda.head? ≠ some (.reset .writer) → t.writer.order = s.writer.order) ∧
    (s.agenda.head? = some (.reset .writer) → t.writer.order = s.cfgOrderW)

/-- 10_state.md R22: every step keeps the Reader's count at most 63. -/
def Obligations.StepKeepsReaderBelow64 : Prop :=
  ∀ s t : State, s.ReaderBelow64 → step s = .next t → t.ReaderBelow64

/-- 10_state.md R41, R43, R44: every step keeps the form of the traffic on the stream ports: answers of at most 8 bytes,
writes of 1 to 8 bytes, accepted counts of no more. -/
def Obligations.StepKeepsTrafficForm : Prop :=
  ∀ s t : State, s.TrafficFits → step s = .next t → t.TrafficFits

/-- 30_encoding.md R80, R81, 60_exceptions.md R202: every step keeps the form of the responses: tokens only with
TransportError, values only with OK and EndOfStream of the Reader and below `2^n`, no EndOfStream and no value from the
Writer. -/
def Obligations.StepKeepsResponseForm : Prop :=
  ∀ s t : State, s.ResponsesFit → step s = .next t → t.ResponsesFit

/-- 10_state.md R35, 20_memory.md R66: the two units' turns commute: whichever of them goes first, the machine ends in the
same state. -/
def Obligations.TurnsOfTheUnitsCommute : Prop :=
  ∀ s a b : State, serve .reader s = .next a → serve .writer s = .next b →
    ∃ c, serve .writer a = .next c ∧ serve .reader b = .next c

/-- 00_scope.md R3, 60_exceptions.md R207: what a Reader command does depends on nothing of the Writer's side, and what a
Writer command does on nothing of the Reader's. -/
def Obligations.UnitsLearnNothingOfEachOther : Prop :=
  ∀ (s s' t : State) (i : Instr), exec i s = .next t →
    (i.port = .reader → s'.reader = s.reader → s'.source = s.source → s'.readerPort = s.readerPort →
      ∃ t', exec i s' = .next t' ∧ t'.reader = t.reader ∧ t'.source = t.source ∧ t'.readerPort = t.readerPort) ∧
    (i.port = .writer → s'.writer = s.writer → s'.sink = s.sink → s'.writerPort = s.writerPort →
      ∃ t', exec i s' = .next t' ∧ t'.writer = t.writer ∧ t'.sink = t.sink ∧ t'.writerPort = t.writerPort)
end

