-- ==== Sys2Proof/Laws/Bits.lean ====
section
/-!
SUPPORT. The small lemmas of the bit strings, of packing and unpacking bytes, of the BitOrderTable and of the chunks.
-/

namespace Sys2Proof.Machine

/-- A content fits its count (00_scope.md R13). -/
theorem content_lt (reg : Word) (valid : Nat) : content reg valid < 2 ^ valid :=
  Nat.mod_lt _ (Nat.two_pow_pos valid)

/-- A content fits the register. -/
theorem content_lt_word (reg : Word) (valid : Nat) : content reg valid < 2 ^ 64 :=
  Nat.lt_of_le_of_lt (Nat.mod_le _ _) reg.isLt

theorem readerContent_lt (u : ReaderUnit) : readerContent u < 2 ^ u.valid.toNat := content_lt _ _

theorem writerContent_lt (u : WriterUnit) : writerContent u < 2 ^ u.valid.toNat := content_lt _ _

/-- A concatenation fits the sum of its widths (00_scope.md R13). -/
theorem concatBits_lt {x y a b : Nat} (hx : x < 2 ^ a) (hy : y < 2 ^ b) : concatBits x b y < 2 ^ (a + b) := by
  unfold concatBits
  calc x * 2 ^ b + y < x * 2 ^ b + 2 ^ b := by omega
    _ = (x + 1) * 2 ^ b := by ring
    _ ≤ 2 ^ a * 2 ^ b := Nat.mul_le_mul_right _ hx
    _ = 2 ^ (a + b) := (pow_add 2 a b).symm

/-- The top `n` of `w` bits fit `n` bits (00_scope.md R13). -/
theorem top_lt {x w n : Nat} (hn : n ≤ w) (hx : x < 2 ^ w) : top x w n < 2 ^ n := by
  unfold top
  rw [Nat.div_lt_iff_lt_mul (Nat.two_pow_pos _), ← pow_add, Nat.add_sub_cancel' hn]
  exact hx

/-- A bit string is its top bits followed by its low ones. -/
theorem top_concat_low (x w n : Nat) : concatBits (top x w n) (w - n) (low x (w - n)) = x := by
  unfold concatBits top low
  exact Nat.div_add_mod' x (2 ^ (w - n))

/-- `k` packed bytes fit `8k` bits. -/
theorem packBytes_lt (bs : List Byte) : packBytes bs < 2 ^ (8 * bs.length) := by
  induction bs with
  | nil => simp [packBytes]
  | cons b bs ih =>
    have := concatBits_lt (a := 8) b.isLt ih
    rw [List.length_cons, Nat.mul_succ, Nat.add_comm]
    exact this

/-- Packing a concatenation concatenates the packed values (20_memory.md R55). -/
theorem packBytes_append (as bs : List Byte) :
    packBytes (as ++ bs) = concatBits (packBytes as) (8 * bs.length) (packBytes bs) := by
  induction as with
  | nil => simp [packBytes, concatBits]
  | cons a as ih =>
    simp only [List.cons_append, packBytes, ih, concatBits, List.length_append, Nat.mul_add, pow_add]
    ring

@[simp] theorem unpackBytes_length (m y : Nat) : (unpackBytes m y).length = m := by
  induction m with
  | zero => rfl
  | succ m ih => simp [unpackBytes, ih]

/-- Packing undoes unpacking, up to the bits that were unpacked (20_memory.md R56). -/
theorem packBytes_unpackBytes (m y : Nat) : packBytes (unpackBytes m y) = y % 2 ^ (8 * m) := by
  induction m with
  | zero => simp [unpackBytes, packBytes, Nat.mod_one]
  | succ m ih =>
    simp only [unpackBytes, packBytes, ih, unpackBytes_length, BitVec.toNat_ofNat]
    rw [Nat.mul_succ, pow_add, Nat.mod_mul]
    ring

/-- Unpacking undoes packing. -/
theorem unpackBytes_packBytes (bs : List Byte) : unpackBytes bs.length (packBytes bs) = bs := by
  have unpack_mod (m y z : Nat) (h : y % 2 ^ (8 * m) = z % 2 ^ (8 * m)) : unpackBytes m y = unpackBytes m z := by
    induction m with
    | zero => rfl
    | succ m ih =>
      rw [Nat.mul_succ, pow_add, Nat.mod_mul, Nat.mod_mul] at h
      have hlow : y % 2 ^ (8 * m) = z % 2 ^ (8 * m) := by
        have := congrArg (· % 2 ^ (8 * m)) h
        simpa [Nat.add_mul_mod_self_left] using this
      have hhigh : y / 2 ^ (8 * m) % 2 ^ 8 = z / 2 ^ (8 * m) % 2 ^ 8 := by
        rw [hlow] at h
        exact Nat.eq_of_mul_eq_mul_left (Nat.two_pow_pos (8 * m)) (Nat.add_left_cancel h)
      simp only [unpackBytes, ih hlow]
      exact congrArg (· :: _) (BitVec.eq_of_toNat_eq (by simpa using hhigh))
  induction bs with
  | nil => rfl
  | cons b bs ih =>
    have hlt := packBytes_lt bs
    simp only [List.length_cons, unpackBytes, packBytes]
    congr 1
    · rw [Nat.mul_comm, Nat.mul_add_div (Nat.two_pow_pos _), Nat.div_eq_of_lt hlt, Nat.add_zero]
      exact BitVec.ofNat_toNat 8 b |>.trans (by simp)
    · rw [unpack_mod bs.length _ (packBytes bs) (by rw [Nat.mul_comm, Nat.mul_add_mod]), ih]

@[simp] theorem emittedBytes_length (o : BitOrder) (m y : Nat) : (emittedBytes o m y).length = m := by
  simp [emittedBytes]

/-- The fresh bits of a refill fit 8 bits a byte. -/
theorem freshBits_lt (o : BitOrder) (bs : List Byte) : freshBits o bs < 2 ^ (8 * bs.length) := by
  simpa [freshBits] using packBytes_lt (bs.map (xform o))

theorem freshBits_append (o : BitOrder) (as bs : List Byte) :
    freshBits o (as ++ bs) = concatBits (freshBits o as) (8 * bs.length) (freshBits o bs) := by
  simp [freshBits, packBytes_append]

/-- The BitOrderTable of 43_bitordertable.md R171 holds `reverseBits` of each byte (R170, R175), row by row. -/
theorem bitOrderTable_eq : bitOrderTable = (List.range 256).map fun b => reverseBits (BitVec.ofNat 8 b) := by
  decide +kernel

theorem bitOrderTable_length : bitOrderTable.length = 256 := by
  rw [bitOrderTable_eq]
  simp

/-- The chunks, with the chunk size as a numeral. -/
theorem chunkSizes_eq (len : Nat) :
    chunkSizes len = List.replicate (len / 8) 8 ++ (if len % 8 = 0 then [] else [len % 8]) := rfl

/-- The chunks of a byte command make up its length (42_byteadapter.md R152). -/
theorem chunkSizes_sum (len : Nat) : (chunkSizes len).sum = len := by
  rw [chunkSizes_eq]
  have h := Nat.div_add_mod' len 8
  split <;> simp_all

/-- Each chunk has 1 to 8 bytes (42_byteadapter.md R150, R152). -/
theorem chunkSizes_bounds {len c : Nat} (h : c ∈ chunkSizes len) : 1 ≤ c ∧ c ≤ 8 := by
  rw [chunkSizes_eq] at h
  have := Nat.mod_lt len (y := 8) (by decide)
  split at h
  all_goals simp_all
  all_goals omega

/-- There are `ceil(len/8)` chunks (42_byteadapter.md R157, R165). -/
theorem chunkSizes_length (len : Nat) : (chunkSizes len).length = (len + 7) / 8 := by
  rw [chunkSizes_eq]
  have h := Nat.div_add_mod' len 8
  split <;> simp_all <;> omega

/-- The chunks of 8 bytes and more: 8, and then those of the rest. -/
theorem chunkSizes_add_eight (len : Nat) : chunkSizes (len + 8) = 8 :: chunkSizes len := by
  rw [chunkSizes_eq, chunkSizes_eq]
  have h : (len + 8) / 8 = len / 8 + 1 := by omega
  simp [h, List.replicate_succ]

/-- A length of 1 to 7 is one chunk. -/
theorem chunkSizes_small {len : Nat} (h : 0 < len) (h8 : len < 8) : chunkSizes len = [len] := by
  rw [chunkSizes_eq]
  have hd : len / 8 = 0 := Nat.div_eq_of_lt h8
  have hm : len % 8 = len := Nat.mod_eq_of_lt h8
  simp [hd, hm, Nat.pos_iff_ne_zero.mp h]

@[simp] theorem chunkSizes_zero : chunkSizes 0 = [] := rfl

/-- A store within the buffer keeps its length. -/
theorem storeAt_length {buf bs : List Byte} {i : Nat} (h : i + bs.length ≤ buf.length) :
    (storeAt buf i bs).length = buf.length := by
  simp [storeAt]
  omega

/-- Before the stored bytes the buffer is unchanged. -/
theorem storeAt_take {buf bs : List Byte} {i : Nat} (h : i ≤ buf.length) : (storeAt buf i bs).take i = buf.take i := by
  simp [storeAt, Nat.min_eq_left h]

/-- Up to the end of the stored bytes the buffer is what stood before and the bytes. -/
theorem storeAt_take_stored {buf bs : List Byte} {i : Nat} (h : i ≤ buf.length) :
    (storeAt buf i bs).take (i + bs.length) = buf.take i ++ bs := by
  have hl : (buf.take i ++ bs).length = i + bs.length := by simp [Nat.min_eq_left h]
  unfold storeAt
  rw [← hl, List.take_left]

/-- After the stored bytes the buffer is unchanged. -/
theorem storeAt_drop {buf bs : List Byte} {i : Nat} (h : i ≤ buf.length) :
    (storeAt buf i bs).drop (i + bs.length) = buf.drop (i + bs.length) := by
  have hl : (buf.take i ++ bs).length = i + bs.length := by simp [Nat.min_eq_left h]
  unfold storeAt
  rw [← hl, List.drop_left, hl]

end Sys2Proof.Machine
end

