-- ==== Sys2Proof/Laws/State.lean ====
section
/-!
SUPPORT. One lemma for each field of State under each update of State, so that no later proof unfolds a record update; and
the port's own updates.
-/

namespace Sys2Proof.Machine

/-! ### The end of a Reader command -/

@[simp] theorem State.endRead_reader (s : State) (u : ReaderUnit) (src : Source) (r : Response) : (s.endRead u src r).reader = u := rfl
@[simp] theorem State.endRead_writer (s : State) (u : ReaderUnit) (src : Source) (r : Response) : (s.endRead u src r).writer = s.writer := rfl
@[simp] theorem State.endRead_cfgOrderR (s : State) (u : ReaderUnit) (src : Source) (r : Response) : (s.endRead u src r).cfgOrderR = s.cfgOrderR := rfl
@[simp] theorem State.endRead_cfgOrderW (s : State) (u : ReaderUnit) (src : Source) (r : Response) : (s.endRead u src r).cfgOrderW = s.cfgOrderW := rfl
@[simp] theorem State.endRead_readerPort (s : State) (u : ReaderUnit) (src : Source) (r : Response) : (s.endRead u src r).readerPort = s.readerPort.respond r := rfl
@[simp] theorem State.endRead_writerPort (s : State) (u : ReaderUnit) (src : Source) (r : Response) : (s.endRead u src r).writerPort = s.writerPort := rfl
@[simp] theorem State.endRead_source (s : State) (u : ReaderUnit) (src : Source) (r : Response) : (s.endRead u src r).source = src := rfl
@[simp] theorem State.endRead_sink (s : State) (u : ReaderUnit) (src : Source) (r : Response) : (s.endRead u src r).sink = s.sink := rfl
@[simp] theorem State.endRead_agenda (s : State) (u : ReaderUnit) (src : Source) (r : Response) : (s.endRead u src r).agenda = s.agenda := rfl

/-! ### The end of a Writer command -/

@[simp] theorem State.endWrite_reader (s : State) (u : WriterUnit) (snk : Sink) (r : Response) : (s.endWrite u snk r).reader = s.reader := rfl
@[simp] theorem State.endWrite_writer (s : State) (u : WriterUnit) (snk : Sink) (r : Response) : (s.endWrite u snk r).writer = u := rfl
@[simp] theorem State.endWrite_cfgOrderR (s : State) (u : WriterUnit) (snk : Sink) (r : Response) : (s.endWrite u snk r).cfgOrderR = s.cfgOrderR := rfl
@[simp] theorem State.endWrite_cfgOrderW (s : State) (u : WriterUnit) (snk : Sink) (r : Response) : (s.endWrite u snk r).cfgOrderW = s.cfgOrderW := rfl
@[simp] theorem State.endWrite_readerPort (s : State) (u : WriterUnit) (snk : Sink) (r : Response) : (s.endWrite u snk r).readerPort = s.readerPort := rfl
@[simp] theorem State.endWrite_writerPort (s : State) (u : WriterUnit) (snk : Sink) (r : Response) : (s.endWrite u snk r).writerPort = s.writerPort.respond r := rfl
@[simp] theorem State.endWrite_source (s : State) (u : WriterUnit) (snk : Sink) (r : Response) : (s.endWrite u snk r).source = s.source := rfl
@[simp] theorem State.endWrite_sink (s : State) (u : WriterUnit) (snk : Sink) (r : Response) : (s.endWrite u snk r).sink = snk := rfl
@[simp] theorem State.endWrite_agenda (s : State) (u : WriterUnit) (snk : Sink) (r : Response) : (s.endWrite u snk r).agenda = s.agenda := rfl

/-! ### A unit's port -/

@[simp] theorem State.port_reader (s : State) : s.port .reader = s.readerPort := rfl
@[simp] theorem State.port_writer (s : State) : s.port .writer = s.writerPort := rfl
@[simp] theorem State.setPort_reader (s : State) (p : PortId) (port : Port) : (s.setPort p port).reader = s.reader := by cases p <;> rfl
@[simp] theorem State.setPort_writer (s : State) (p : PortId) (port : Port) : (s.setPort p port).writer = s.writer := by cases p <;> rfl
@[simp] theorem State.setPort_cfgOrderR (s : State) (p : PortId) (port : Port) : (s.setPort p port).cfgOrderR = s.cfgOrderR := by cases p <;> rfl
@[simp] theorem State.setPort_cfgOrderW (s : State) (p : PortId) (port : Port) : (s.setPort p port).cfgOrderW = s.cfgOrderW := by cases p <;> rfl
@[simp] theorem State.setPort_reader_readerPort (s : State) (port : Port) : (s.setPort .reader port).readerPort = port := rfl
@[simp] theorem State.setPort_writer_readerPort (s : State) (port : Port) : (s.setPort .writer port).readerPort = s.readerPort := rfl
@[simp] theorem State.setPort_reader_writerPort (s : State) (port : Port) : (s.setPort .reader port).writerPort = s.writerPort := rfl
@[simp] theorem State.setPort_writer_writerPort (s : State) (port : Port) : (s.setPort .writer port).writerPort = port := rfl
@[simp] theorem State.setPort_source (s : State) (p : PortId) (port : Port) : (s.setPort p port).source = s.source := by cases p <;> rfl
@[simp] theorem State.setPort_sink (s : State) (p : PortId) (port : Port) : (s.setPort p port).sink = s.sink := by cases p <;> rfl
@[simp] theorem State.setPort_agenda (s : State) (p : PortId) (port : Port) : (s.setPort p port).agenda = s.agenda := by cases p <;> rfl
@[simp] theorem State.setPort_port (s : State) (p : PortId) (port : Port) : (s.setPort p port).port p = port := by cases p <;> rfl
@[simp] theorem State.setPort_port_other (s : State) (p : PortId) (port : Port) : (s.setPort p port).port p.other = s.port p.other := by cases p <;> rfl
@[simp] theorem State.setPort_setPort (s : State) (p : PortId) (a b : Port) : (s.setPort p a).setPort p b = s.setPort p b := by cases p <;> rfl

/-! ### Reset and configuration -/

@[simp] theorem State.resetUnit_reader_reader (s : State) : (s.resetUnit .reader).reader = ⟨s.cfgOrderR, 0#64, 0#7⟩ := rfl
@[simp] theorem State.resetUnit_reader_writer (s : State) : (s.resetUnit .reader).writer = s.writer := rfl
@[simp] theorem State.resetUnit_reader_cfgOrderR (s : State) : (s.resetUnit .reader).cfgOrderR = s.cfgOrderR := rfl
@[simp] theorem State.resetUnit_reader_cfgOrderW (s : State) : (s.resetUnit .reader).cfgOrderW = s.cfgOrderW := rfl
@[simp] theorem State.resetUnit_reader_readerPort (s : State) : (s.resetUnit .reader).readerPort = s.readerPort.abandon := rfl
@[simp] theorem State.resetUnit_reader_writerPort (s : State) : (s.resetUnit .reader).writerPort = s.writerPort := rfl
@[simp] theorem State.resetUnit_reader_source (s : State) : (s.resetUnit .reader).source = s.source.afterReset s.readerPort.current := rfl
@[simp] theorem State.resetUnit_reader_sink (s : State) : (s.resetUnit .reader).sink = s.sink := rfl
@[simp] theorem State.resetUnit_reader_agenda (s : State) : (s.resetUnit .reader).agenda = s.agenda := rfl
@[simp] theorem State.resetUnit_writer_reader (s : State) : (s.resetUnit .writer).reader = s.reader := rfl
@[simp] theorem State.resetUnit_writer_writer (s : State) : (s.resetUnit .writer).writer = ⟨s.cfgOrderW, 0#64, 0#6⟩ := rfl
@[simp] theorem State.resetUnit_writer_cfgOrderR (s : State) : (s.resetUnit .writer).cfgOrderR = s.cfgOrderR := rfl
@[simp] theorem State.resetUnit_writer_cfgOrderW (s : State) : (s.resetUnit .writer).cfgOrderW = s.cfgOrderW := rfl
@[simp] theorem State.resetUnit_writer_readerPort (s : State) : (s.resetUnit .writer).readerPort = s.readerPort := rfl
@[simp] theorem State.resetUnit_writer_writerPort (s : State) : (s.resetUnit .writer).writerPort = s.writerPort.abandon := rfl
@[simp] theorem State.resetUnit_writer_source (s : State) : (s.resetUnit .writer).source = s.source := rfl
@[simp] theorem State.resetUnit_writer_sink (s : State) : (s.resetUnit .writer).sink = s.sink.afterReset s.writerPort.current := rfl
@[simp] theorem State.resetUnit_writer_agenda (s : State) : (s.resetUnit .writer).agenda = s.agenda := rfl
@[simp] theorem State.configure_reader (s : State) (p : PortId) (o : BitOrder) : (s.configure p o).reader = s.reader := by cases p <;> rfl
@[simp] theorem State.configure_writer (s : State) (p : PortId) (o : BitOrder) : (s.configure p o).writer = s.writer := by cases p <;> rfl
@[simp] theorem State.configure_reader_cfgOrderR (s : State) (o : BitOrder) : (s.configure .reader o).cfgOrderR = o := rfl
@[simp] theorem State.configure_writer_cfgOrderR (s : State) (o : BitOrder) : (s.configure .writer o).cfgOrderR = s.cfgOrderR := rfl
@[simp] theorem State.configure_reader_cfgOrderW (s : State) (o : BitOrder) : (s.configure .reader o).cfgOrderW = s.cfgOrderW := rfl
@[simp] theorem State.configure_writer_cfgOrderW (s : State) (o : BitOrder) : (s.configure .writer o).cfgOrderW = o := rfl
@[simp] theorem State.configure_readerPort (s : State) (p : PortId) (o : BitOrder) : (s.configure p o).readerPort = s.readerPort := by cases p <;> rfl
@[simp] theorem State.configure_writerPort (s : State) (p : PortId) (o : BitOrder) : (s.configure p o).writerPort = s.writerPort := by cases p <;> rfl
@[simp] theorem State.configure_source (s : State) (p : PortId) (o : BitOrder) : (s.configure p o).source = s.source := by cases p <;> rfl
@[simp] theorem State.configure_sink (s : State) (p : PortId) (o : BitOrder) : (s.configure p o).sink = s.sink := by cases p <;> rfl
@[simp] theorem State.configure_agenda (s : State) (p : PortId) (o : BitOrder) : (s.configure p o).agenda = s.agenda := by cases p <;> rfl

/-! ### Ports, the source and the sink -/

@[simp] theorem Port.respond_pending (p : Port) (r : Response) : (p.respond r).pending = p.pending := rfl
@[simp] theorem Port.respond_current (p : Port) (r : Response) : (p.respond r).current = none := rfl
@[simp] theorem Port.respond_responses (p : Port) (r : Response) : (p.respond r).responses = p.responses ++ [r] := rfl
@[simp] theorem Port.abandon_pending (p : Port) : p.abandon.pending = p.pending := rfl
@[simp] theorem Port.abandon_current (p : Port) : p.abandon.current = none := rfl
@[simp] theorem Port.abandon_responses (p : Port) : p.abandon.responses = p.responses := rfl

/-- Each answered request adds one reply to the source's record. -/
@[simp] theorem Source.answered_log (src : Source) (r : SourceReply) : (src.answered r).log = src.log ++ [r] := by
  unfold Source.answered
  split <;> rfl

/-- Each answered write adds one entry to the sink's record. -/
@[simp] theorem Sink.answered_log (snk : Sink) (bytes : List Byte) (r : SinkReply) :
    (snk.answered bytes r).log = snk.log ++ [⟨bytes, r⟩] := rfl

@[simp] theorem Source.afterReset_log (src : Source) (c : Option Command) : (src.afterReset c).log = src.log := by
  cases c <;> rfl

@[simp] theorem Sink.afterReset_log (snk : Sink) (c : Option Command) : (snk.afterReset c).log = snk.log := by
  cases c <;> rfl

/-- The command a unit takes up is the one in progress afterwards, and no response is given. -/
theorem Port.accept_some {p q : Port} {c : Command} (h : p.accept = some (c, q)) :
    q.current = some c ∧ q.responses = p.responses ∧
      ((p.current = some c ∧ q = p) ∨ (p.current = none ∧ p.pending = c :: q.pending)) := by
  unfold Port.accept at h
  split at h
  · rename_i c' hc
    simp only [Option.some.injEq, Prod.mk.injEq] at h
    obtain ⟨rfl, rfl⟩ := h
    exact ⟨hc, rfl, .inl ⟨hc, rfl⟩⟩
  · rename_i hc
    split at h
    · rename_i c' cs hp
      simp only [Option.some.injEq, Prod.mk.injEq] at h
      obtain ⟨rfl, rfl⟩ := h
      exact ⟨rfl, rfl, .inr ⟨hc, hp⟩⟩
    · cases h

end Sys2Proof.Machine
end

