-- ==== Sys2Proof/Laws/Ops.lean ====
section
/-!
SUPPORT. Everything a shared operation can do, once: an inversion lemma for each of srcRead, snkWrite, readBits, writeBits,
flushBits, and the unfoldings of the byte loops by one chunk.
-/

namespace Sys2Proof.Machine

/-! ### Going on with a result -/

@[simp] theorem andThen_next {α β : Type} (a : α) (f : α → Host.Outcome β Fault Refusal) :
    andThen (.next a) f = f a := rfl

@[simp] theorem andThen_fault {α β : Type} (e : Fault) (f : α → Host.Outcome β Fault Refusal) :
    andThen (.fault e) f = .fault e := rfl

@[simp] theorem andThen_refused {α β : Type} (e : Refusal) (f : α → Host.Outcome β Fault Refusal) :
    andThen (.refused e) f = .refused e := rfl

/-- A sequence completes exactly when both of its parts do. -/
theorem andThen_eq_next {α β : Type} {o : Host.Outcome α Fault Refusal} {f : α → Host.Outcome β Fault Refusal} {b : β} :
    andThen o f = .next b ↔ ∃ a, o = .next a ∧ f a = .next b := by
  cases o <;> simp [andThen]

/-! ### The source and the sink -/

/-- What a source about which nothing is known answers lies within the interface (10_state.md R41). -/
theorem unknownSourceAnswer_fits (k : Nat) : (unknownSourceAnswer k).fits = true := by
  unfold unknownSourceAnswer
  split <;> simp [SourceAnswer.fits]

/-- An answered source request gave a reply that fits, and the source has moved on by it. -/
theorem srcRead_eq_next {src src' : Source} {reply : SourceReply} (h : srcRead src = .next (reply, src')) :
    reply.fits = true ∧ src' = src.answered reply ∧
      ((∃ bytes, reply = .data bytes ∧ src.answer = some (.data bytes)) ∨
        (∃ e, reply = .error e ∧ src.answer = some (.error e))) := by
  unfold srcRead at h
  split at h
  · cases h
  · rename_i bytes ha
    split at h
    · rename_i hlen
      cases h
      exact ⟨by simpa [SourceReply.fits] using hlen, rfl, .inl ⟨bytes, rfl, ha⟩⟩
    · cases h
  · rename_i e ha
    cases h
    exact ⟨rfl, rfl, .inr ⟨e, rfl, ha⟩⟩
  · cases h

/-- The source request when the next answer is data of at most 8 bytes. -/
theorem srcRead_data {src : Source} {bytes : List Byte} (h : src.answer = some (.data bytes)) (hl : bytes.length ≤ 8) :
    srcRead src = .next (.data bytes, src.answered (.data bytes)) := by
  simp [srcRead, h, hl]

/-- The source request when the next answer is an error. -/
theorem srcRead_error {src : Source} {e : ErrToken} (h : src.answer = some (.error e)) :
    srcRead src = .next (.error e, src.answered (.error e)) := by
  simp [srcRead, h]

/-- The source request when no answer comes (93 I15). -/
theorem srcRead_silent {src : Source} (h : src.answer = none) : srcRead src = .fault .awaitingSource := by
  simp [srcRead, h]

/-- The source request when the next answer lies within the interface is answered. -/
theorem srcRead_fits {src : Source} {a : SourceAnswer} (h : src.answer = some a) (hf : a.fits = true) :
    ∃ reply, srcRead src = .next (reply, src.answered reply) := by
  cases a with
  | data bytes => exact ⟨_, srcRead_data h (by simpa [SourceAnswer.fits] using hf)⟩
  | error e => exact ⟨_, srcRead_error h⟩
  | dataWithError bytes e => simp [SourceAnswer.fits] at hf

/-- The source request when the next answer lies outside the interface is refused (93 I8). -/
theorem srcRead_outside {src : Source} {a : SourceAnswer} (h : src.answer = some a) (hf : a.fits = false) :
    srcRead src = .refused .sourceAnswerOutsideInterface := by
  cases a with
  | data bytes =>
    have : ¬ bytes.length ≤ Config.refillBytes := by simpa [SourceAnswer.fits] using hf
    simp [srcRead, h, this]
  | error e => simp [SourceAnswer.fits] at hf
  | dataWithError bytes e => simp [srcRead, h]

/-- What a sink about which nothing is known answers lies within the interface (10_state.md R44). -/
theorem unknownSinkAnswer_fits (k m : Nat) : (unknownSinkAnswer k m).fits m = true := by
  unfold unknownSinkAnswer
  split <;> simp [SinkAnswer.fits]

/-- An answered sink write kept the accepted count within what was written, and the sink has recorded it. -/
theorem snkWrite_eq_next {snk snk' : Sink} {bytes : List Byte} {reply : SinkReply}
    (h : snkWrite bytes snk = .next (reply, snk')) :
    snk' = snk.answered bytes reply ∧
      ((reply = .ok ∧ snk.answer bytes.length = some .ok) ∨
        (∃ acc e, reply = .error acc e ∧ acc ≤ bytes.length ∧ snk.answer bytes.length = some (.error acc e))) := by
  unfold snkWrite at h
  split at h
  · cases h
  · rename_i ha
    cases h
    exact ⟨rfl, .inl ⟨rfl, ha⟩⟩
  · rename_i acc e ha
    split at h
    · rename_i hacc
      cases h
      exact ⟨rfl, .inr ⟨acc, e, rfl, hacc, ha⟩⟩
    · cases h
  · cases h

/-- The sink write when the next answer is `Ok`. -/
theorem snkWrite_ok {snk : Sink} {bytes : List Byte} (h : snk.answer bytes.length = some .ok) :
    snkWrite bytes snk = .next (.ok, snk.answered bytes .ok) := by
  simp [snkWrite, h]

/-- The sink write when the next answer is an error with a count that fits. -/
theorem snkWrite_error {snk : Sink} {bytes : List Byte} {acc : Nat} {e : ErrToken}
    (h : snk.answer bytes.length = some (.error acc e)) (hacc : acc ≤ bytes.length) :
    snkWrite bytes snk = .next (.error acc e, snk.answered bytes (.error acc e)) := by
  simp [snkWrite, h, hacc]

/-- The sink write when no answer comes (93 I15). -/
theorem snkWrite_silent {snk : Sink} {bytes : List Byte} (h : snk.answer bytes.length = none) :
    snkWrite bytes snk = .fault .awaitingSink := by
  simp [snkWrite, h]

/-- The sink write when the next answer lies within the interface is answered. -/
theorem snkWrite_fits {snk : Sink} {bytes : List Byte} {a : SinkAnswer} (h : snk.answer bytes.length = some a)
    (hf : a.fits bytes.length = true) : ∃ reply, snkWrite bytes snk = .next (reply, snk.answered bytes reply) := by
  cases a with
  | ok => exact ⟨_, snkWrite_ok h⟩
  | error acc e => exact ⟨_, snkWrite_error h (by simpa [SinkAnswer.fits] using hf)⟩
  | other => simp [SinkAnswer.fits] at hf

/-- The sink write when the next answer lies outside the interface is refused (93 I8). -/
theorem snkWrite_outside {snk : Sink} {bytes : List Byte} {a : SinkAnswer} (h : snk.answer bytes.length = some a)
    (hf : a.fits bytes.length = false) : snkWrite bytes snk = .refused .sinkAnswerOutsideInterface := by
  cases a with
  | ok => simp [SinkAnswer.fits] at hf
  | error acc e =>
    have : ¬ acc ≤ bytes.length := by simpa [SinkAnswer.fits] using hf
    simp [snkWrite, h, this]
  | other => simp [snkWrite, h]

/-! ### The bit commands -/

/-- Everything a completed bit read can be (40_bitreader.md R111). -/
theorem readBits_eq_next {count : Nat} {u : ReaderUnit} {src : Source} {r : ReadResult}
    (h : readBits count u src = .next r) :
    (64 < count ∧ r = ⟨.countRangeError, 0, 0, ErrToken.zero, u, src⟩) ∨
    (count ≤ 64 ∧ count ≤ u.valid.toNat ∧ r = readBuffered count u src) ∨
    (count ≤ 64 ∧ u.valid.toNat < count ∧ ∃ reply, reply.fits = true ∧
      srcRead src = .next (reply, src.answered reply) ∧ r = refill count u (reply, src.answered reply)) := by
  unfold readBits at h
  split at h
  · rename_i hc
    cases h
    exact .inl ⟨hc, rfl⟩
  · rename_i hc
    have hc : count ≤ 64 := Nat.le_of_not_gt hc
    split at h
    · rename_i hv
      cases h
      exact .inr (.inl ⟨hc, hv, rfl⟩)
    · rename_i hv
      obtain ⟨⟨reply, src'⟩, hs, hr⟩ := andThen_eq_next.mp h
      obtain ⟨hfit, rfl, _⟩ := srcRead_eq_next hs
      cases hr
      exact .inr (.inr ⟨hc, Nat.lt_of_not_le hv, reply, hfit, hs, rfl⟩)

/-- A bit read never changes the order (10_state.md R26). -/
theorem readBits_order {count : Nat} {u : ReaderUnit} {src : Source} {r : ReadResult}
    (h : readBits count u src = .next r) : r.unit.order = u.order := by
  obtain ⟨_, rfl⟩ | ⟨_, _, rfl⟩ | ⟨_, _, reply, _, _, rfl⟩ := readBits_eq_next h
  · rfl
  · rfl
  · cases reply with
    | error e => rfl
    | data bytes => simp only [refill]; split <;> rfl

/-- Everything a completed bit write can be (41_bitwriter.md R127). -/
theorem writeBits_eq_next {count value : Nat} {u : WriterUnit} {snk : Sink} {r : WriteResult}
    (h : writeBits count value u snk = .next r) :
    (64 < count ∧ r = ⟨.countRangeError, 0, ErrToken.zero, u, snk⟩) ∨
    (count ≤ 64 ∧ count < writerRoom u ∧ r = ⟨.ok, count, ErrToken.zero, appended count (low value count) u, snk⟩) ∨
    (count ≤ 64 ∧ writerRoom u ≤ count ∧ ∃ reply,
      let bytes := emittedBytes u.order 8 (fullWord count (low value count) u)
      snkWrite bytes snk = .next (reply, snk.answered bytes reply) ∧
      r = settleWrite u (refilled count (low value count) u) count (reply, snk.answered bytes reply)) := by
  unfold writeBits at h
  split at h
  · rename_i hc
    cases h
    exact .inl ⟨hc, rfl⟩
  · rename_i hc
    have hc : count ≤ 64 := Nat.le_of_not_gt hc
    split at h
    · rename_i hv
      cases h
      exact .inr (.inl ⟨hc, hv, rfl⟩)
    · rename_i hv
      obtain ⟨⟨reply, snk'⟩, hs, hr⟩ := andThen_eq_next.mp h
      obtain ⟨rfl, _⟩ := snkWrite_eq_next hs
      cases hr
      exact .inr (.inr ⟨hc, Nat.le_of_not_gt hv, reply, hs, rfl⟩)

/-- A settled write leaves the unit as it was or as the success says, and keeps the sink it was given. -/
theorem settleWrite_cases (u after : WriterUnit) (n : Nat) (reply : SinkReply) (snk : Sink) :
    (reply = .ok ∧ settleWrite u after n (reply, snk) = ⟨.ok, n, ErrToken.zero, after, snk⟩) ∨
    (∃ acc e, reply = .error acc e ∧ settleWrite u after n (reply, snk) = ⟨.transportError, acc, e, u, snk⟩) := by
  cases reply with
  | ok => exact .inl ⟨rfl, rfl⟩
  | error acc e => exact .inr ⟨acc, e, rfl, rfl⟩

/-- A bit write never changes the order (10_state.md R26). -/
theorem writeBits_order {count value : Nat} {u : WriterUnit} {snk : Sink} {r : WriteResult}
    (h : writeBits count value u snk = .next r) : r.unit.order = u.order := by
  obtain ⟨_, rfl⟩ | ⟨_, _, rfl⟩ | ⟨_, _, reply, _, rfl⟩ := writeBits_eq_next h
  · rfl
  · rfl
  · cases reply <;> rfl

/-- Everything a completed flush can be (41_bitwriter.md R137). -/
theorem flushBits_eq_next {u : WriterUnit} {snk : Sink} {r : WriteResult} (h : flushBits u snk = .next r) :
    (u.valid.toNat = 0 ∧ r = ⟨.ok, 0, ErrToken.zero, u, snk⟩) ∨
    (u.valid.toNat ≠ 0 ∧ ∃ reply,
      snkWrite (flushBytes u) snk = .next (reply, snk.answered (flushBytes u) reply) ∧
      r = settleWrite u { u with valid := 0#6 } 0 (reply, snk.answered (flushBytes u) reply)) := by
  unfold flushBits at h
  split at h
  · rename_i hv
    cases h
    exact .inl ⟨hv, rfl⟩
  · rename_i hv
    obtain ⟨⟨reply, snk'⟩, hs, hr⟩ := andThen_eq_next.mp h
    obtain ⟨rfl, _⟩ := snkWrite_eq_next hs
    cases hr
    exact .inr ⟨hv, reply, hs, rfl⟩

/-- A flush writes `ceil(valid/8)` bytes (41_bitwriter.md R133). -/
theorem flushBytes_length (u : WriterUnit) : (flushBytes u).length = (u.valid.toNat + 7) / 8 := by
  simp only [flushBytes, emittedBytes_length, paddingBits]
  omega

/-! ### The byte loops, one chunk at a time -/

/-- A loop of reads with no chunk left (42_byteadapter.md R151). -/
@[simp] theorem readChunks_nil (i : Nat) (buf : List Byte) (u : ReaderUnit) (src : Source) :
    readChunks [] i buf u src = .next ⟨.ok, i, ErrToken.zero, buf, u, src⟩ := rfl

/-- Everything a completed loop of reads can do with its first chunk (42_byteadapter.md R153 to R155). -/
theorem readChunks_cons_eq_next {c : Nat} {cs : List Nat} {i : Nat} {buf : List Byte} {u : ReaderUnit} {src : Source}
    {r : FillResult} (h : readChunks (c :: cs) i buf u src = .next r) :
    ∃ q, readBits (8 * c) u src = .next q ∧
      ((q.status = .ok ∧
          readChunks cs (i + c) (storeAt buf i (unpackBytes c q.value)) q.unit q.source = .next r) ∨
        (q.status = .endOfStream ∧ r = ⟨.endOfStream, i + q.n / 8, ErrToken.zero,
          storeAt buf i (unpackBytes (q.n / 8) (q.value / 2 ^ (q.n % 8))), q.unit, q.source⟩) ∨
        (q.status ≠ .ok ∧ q.status ≠ .endOfStream ∧ r = ⟨.transportError, i, q.err, buf, q.unit, q.source⟩)) := by
  obtain ⟨q, hq, hr⟩ := andThen_eq_next.mp h
  refine ⟨q, hq, ?_⟩
  split at hr
  · rename_i hs
    exact .inl ⟨hs, hr⟩
  · rename_i hs
    cases hr
    exact .inr (.inl ⟨hs, rfl⟩)
  all_goals
    rename_i hs
    cases hr
    exact .inr (.inr ⟨by simp [hs], by simp [hs], rfl⟩)

/-- A loop of writes with no chunk left (42_byteadapter.md R160). -/
@[simp] theorem writeChunks_nil (i : Nat) (buf : List Byte) (u : WriterUnit) (snk : Sink) :
    writeChunks [] i buf u snk = .next ⟨.ok, i, ErrToken.zero, u, snk⟩ := rfl

/-- Everything a completed loop of writes can do with its first chunk (42_byteadapter.md R161 to R163). -/
theorem writeChunks_cons_eq_next {c : Nat} {cs : List Nat} {i : Nat} {buf : List Byte} {u : WriterUnit} {snk : Sink}
    {r : WriteResult} (h : writeChunks (c :: cs) i buf u snk = .next r) :
    ∃ q, writeBits (8 * c) (chunkValue buf i c) u snk = .next q ∧
      ((q.status = .transportError ∧ r = ⟨.transportError, i, q.err, q.unit, q.sink⟩) ∨
        (q.status ≠ .transportError ∧ writeChunks cs (i + c) buf q.unit q.sink = .next r)) := by
  obtain ⟨q, hq, hr⟩ := andThen_eq_next.mp h
  refine ⟨q, hq, ?_⟩
  split at hr
  · rename_i hs
    cases hr
    exact .inl ⟨hs, rfl⟩
  · rename_i hs
    exact .inr ⟨hs, hr⟩

/-! ### The commands and the turns -/

/-- A completed RDBITS is a completed bit read and its response. -/
theorem execRdbits_eq_next {count : BitVec 8} {d : Bool} {s t : State} (h : execRdbits count d s = .next t) :
    ∃ r, readBits count.toNat s.reader s.source = .next r ∧
      t = s.endRead r.unit r.source (respondErr r.status r.n (if d then 0 else r.value) r.err) := by
  obtain ⟨r, hr, ht⟩ := andThen_eq_next.mp h
  cases ht
  exact ⟨r, hr, rfl⟩

/-- A completed RDBYTES is a completed loop of reads and its response. -/
theorem execRdbytes_eq_next {len : BitVec 32} {buf : List Byte} {s t : State} (h : execRdbytes len buf s = .next t) :
    buf.length = len.toNat ∧ ∃ r, readChunks (chunkSizes len.toNat) 0 buf s.reader s.source = .next r ∧
      t = s.endRead r.unit r.source (respondBuf r.status r.n r.err r.buf) := by
  unfold execRdbytes at h
  split at h
  · rename_i hl
    obtain ⟨r, hr, ht⟩ := andThen_eq_next.mp h
    cases ht
    exact ⟨hl, r, hr, rfl⟩
  · cases h

/-- A completed WRBITS is a completed bit write and its response. -/
theorem execWrbits_eq_next {count : BitVec 8} {value : Word} {s t : State} (h : execWrbits count value s = .next t) :
    ∃ r, writeBits count.toNat value.toNat s.writer s.sink = .next r ∧
      t = s.endWrite r.unit r.sink (respondErr r.status r.n 0 r.err) := by
  obtain ⟨r, hr, ht⟩ := andThen_eq_next.mp h
  cases ht
  exact ⟨r, hr, rfl⟩

/-- A completed WRBYTES is a completed loop of writes and its response. -/
theorem execWrbytes_eq_next {len : BitVec 32} {buf : List Byte} {s t : State} (h : execWrbytes len buf s = .next t) :
    buf.length = len.toNat ∧ ∃ r, writeChunks (chunkSizes len.toNat) 0 buf s.writer s.sink = .next r ∧
      t = s.endWrite r.unit r.sink (respondErr r.status r.n 0 r.err) := by
  unfold execWrbytes at h
  split at h
  · rename_i hl
    obtain ⟨r, hr, ht⟩ := andThen_eq_next.mp h
    cases ht
    exact ⟨hl, r, hr, rfl⟩
  · cases h

/-- A completed FLUSH is a completed flush and its response. -/
theorem execFlush_eq_next {s t : State} (h : execFlush s = .next t) :
    ∃ r, flushBits s.writer s.sink = .next r ∧ t = s.endWrite r.unit r.sink (respondErr r.status r.n 0 r.err) := by
  obtain ⟨r, hr, ht⟩ := andThen_eq_next.mp h
  cases ht
  exact ⟨r, hr, rfl⟩

/-- Everything a completed turn of a unit can be: idle, an illegal word answered, a command executed, or a command that
waits (10_state.md R35, 30_encoding.md R78, 60_exceptions.md R219). -/
theorem serve_eq_next {p : PortId} {s t : State} (h : serve p s = .next t) :
    ((s.port p).accept = none ∧ t = s) ∨
    (∃ c port, (s.port p).accept = some (c, port) ∧
      ((∃ e, decode p c = .error e ∧ t = (s.setPort p port).endIllegal p) ∨
        (∃ i, decode p c = .ok i ∧
          (exec i (s.setPort p port) = .next t ∨
            (t = s.setPort p port ∧ ∃ f, exec i (s.setPort p port) = .fault f))))) := by
  unfold serve at h
  split at h
  · rename_i ha
    cases h
    exact .inl ⟨ha, rfl⟩
  · rename_i c port ha
    refine .inr ⟨c, port, ha, ?_⟩
    unfold runCommand at h
    split at h
    · rename_i i hi
      refine .inr ⟨i, hi, ?_⟩
      unfold waitOrDone at h
      split at h
      · rename_i t' he
        cases h
        exact .inl he
      · rename_i he
        cases h
        exact .inr ⟨rfl, _, he⟩
      · rename_i he
        cases h
        exact .inr ⟨rfl, _, he⟩
      · cases h
    · rename_i e he
      cases h
      exact .inl ⟨e, he, rfl⟩

end Sys2Proof.Machine
end

