-- ==== Sys2Proof/Laws/PerInstr.lean ====
section
/-!
SUPPORT. A statement for all instructions, by constructor: the word that spells an instruction matches exactly one row of
the opcode map, the row of its own mnemonic (30_encoding.md R76, R77).
-/

namespace Sys2Proof.Laws.OwnRow

open Sys2Proof

/-- The row of an instruction's mnemonic (30_encoding.md R76). -/
def rowOf : Instr → OpcodeRow
  | .rdbits _ _ => rowRdbits
  | .rdbytes _ _ => rowRdbytes
  | .wrbits _ _ => rowWrbits
  | .wrbytes _ _ => rowWrbytes
  | .padding => rowPadding
  | .flush => rowFlush

/-- A word that matches one row of the opcode map and no other. -/
abbrev MatchesOnly (row : OpcodeRow) (w : CmdWord) : Prop :=
  row.hits w = true ∧ ∀ other ∈ opcodeRows, other.hits w = true → other = row

/-- The instruction's word matches its own row and no other. -/
def Statement (i : Instr) : Prop := MatchesOnly (rowOf i) (encode i).cmd

/-- The words of RDBITS, each flag and each count. -/
theorem rdbits_words : ∀ (d : Bool) (count : BitVec 8), MatchesOnly rowRdbits (formatC 0x10#8 d count) := by
  decide +kernel

/-- The words of WRBITS, each count. -/
theorem wrbits_words : ∀ count : BitVec 8, MatchesOnly rowWrbits (formatC 0x20#8 false count) := by
  decide +kernel

/-- The words without a field. -/
theorem plain_words :
    MatchesOnly rowRdbytes (formatC 0x11#8 false 0#8) ∧ MatchesOnly rowWrbytes (formatC 0x21#8 false 0#8) ∧
    MatchesOnly rowPadding (formatC 0x22#8 false 0#8) ∧ MatchesOnly rowFlush (formatC 0x23#8 false 0#8) := by
  decide +kernel

theorem rdbits (count : BitVec 8) (discard : Bool) : Statement (.rdbits count discard) := rdbits_words discard count

theorem rdbytes (len : BitVec 32) (buf : List Byte) : Statement (.rdbytes len buf) := plain_words.1

theorem wrbits (count : BitVec 8) (value : Word) : Statement (.wrbits count value) := wrbits_words count

theorem wrbytes (len : BitVec 32) (buf : List Byte) : Statement (.wrbytes len buf) := plain_words.2.1

theorem padding : Statement .padding := plain_words.2.2.1

theorem flush : Statement .flush := plain_words.2.2.2

end Sys2Proof.Laws.OwnRow
end

