-- ==== Sys2Proof/Tests/Slice0.lean ====
section
/-!
SUPPORT. Tests on fixed values, with results from 95_test_vectors.md and the worked examples of the rules; the smoke test of
WellFormed; and for each statement with hypotheses a witness that meets all of them.
-/

namespace Sys2Proof.Tests

open Sys2Proof Sys2Proof.Machine

/-! ### Helpers -/

/-- The outcome is a next state with this property. -/
def endsWith (o : Host.Outcome State Fault Refusal) (p : State → Bool) : Bool :=
  match o with
  | .next t => p t
  | .fault _ => false
  | .refused _ => false

theorem exists_next {o : Host.Outcome State Fault Refusal} {p : State → Bool} (h : endsWith o p = true) :
    ∃ t, o = .next t ∧ p t = true := by
  cases o with
  | next t => exact ⟨t, rfl, h⟩
  | fault _ => simp [endsWith] at h
  | refused _ => simp [endsWith] at h

theorem exists_such {o : Host.Outcome State Fault Refusal} {P : State → Prop} [DecidablePred P]
    (h : endsWith o (fun t => decide (P t)) = true) : ∃ t, o = .next t ∧ P t := by
  obtain ⟨t, ho, hp⟩ := exists_next h
  exact ⟨t, ho, of_decide_eq_true hp⟩

/-- A Reader with this content and this source. -/
def reading (order : BitOrder) (reg valid : Nat) (script : List SourceAnswer) (rest : List Byte) : State :=
  { State.reset with
    reader := ⟨order, BitVec.ofNat 64 reg, BitVec.ofNat 7 valid⟩
    source := ⟨script, .stream rest, []⟩ }

/-- A Writer with this content and a sink that gives these answers and then accepts everything. -/
def writing (order : BitOrder) (reg valid : Nat) (script : List SinkAnswer) : State :=
  { State.reset with
    writer := ⟨order, BitVec.ofNat 64 reg, BitVec.ofNat 6 valid⟩
    sink := ⟨script, .accepting, []⟩ }

/-- A command waiting on a port, and that unit's turn. -/
def issued (p : PortId) (cmd : Nat) (operand : Nat) (buf : List Byte) (s : State) : State :=
  issueNext p ⟨BitVec.ofNat 32 cmd, BitVec.ofNat 64 operand, buf⟩ s

def resp (status : Status) (n value err : Nat) (buf : List Byte) : Response :=
  ⟨status, BitVec.ofNat 64 n, BitVec.ofNat 64 value, ⟨err⟩, buf⟩

abbrev msb : BitOrder := .mostSignificantFirst
abbrev lsb : BitOrder := .leastSignificantFirst

/-! ### WellFormed -/

theorem test_wellFormed_refuses_short_rdbytes : Instr.wellFormed (.rdbytes 2#32 [0xEE#8]) = false := by decide
theorem test_wellFormed_refuses_long_wrbytes : Instr.wellFormed (.wrbytes 1#32 [1#8, 2#8]) = false := by decide
theorem test_wellFormed_takes_all_counts : Instr.wellFormed (.rdbits 255#8 true) = true := by decide

/-! ### Decoding and encoding (30_encoding.md R71, R76, R85; 95, Decode) -/

-- op 0001_0000, resv1 0000000, D 1, resv0 00000000, count 01000000
theorem test_decode_rdbits_bits :
    decode .reader ⟨0b00010000000000010000000001000000#32, 0#64, []⟩ = .ok (.rdbits 64#8 true) := by decide
-- op 0001_0001, the rest 0; len = operand[31:0], operand[63:32] ignored
theorem test_decode_rdbytes_bits :
    decode .reader ⟨0b00010001000000000000000000000000#32, 0xFFFFFFFF00000002#64, [1#8, 2#8]⟩
      = .ok (.rdbytes 2#32 [1#8, 2#8]) := by decide
-- op 0010_0000, count 00001000
theorem test_decode_wrbits_bits :
    decode .writer ⟨0b00100000000000000000000000001000#32, 0xA5#64, []⟩ = .ok (.wrbits 8#8 0xA5#64) := by decide
theorem test_decode_wrbytes_bits :
    decode .writer ⟨0b00100001000000000000000000000000#32, 1#64, [7#8]⟩ = .ok (.wrbytes 1#32 [7#8]) := by decide
theorem test_decode_padding_bits :
    decode .writer ⟨0b00100010000000000000000000000000#32, 0#64, []⟩ = .ok .padding := by decide
theorem test_decode_flush_bits :
    decode .writer ⟨0b00100011000000000000000000000000#32, 0#64, []⟩ = .ok .flush := by decide
theorem test_decode_illegal_on_reader :
    ([0x10000100#32, 0x10020000#32, 0x11000001#32, 0x20000008#32].map fun w => decode .reader ⟨w, 0#64, []⟩)
      = [.error .reservedBits, .error .reservedBits, .error .reservedBits, .error .otherUnit] := by decide
theorem test_decode_illegal_on_writer :
    ([0x20010008#32, 0x24000000#32, 0x00000000#32].map fun w => decode .writer ⟨w, 0#64, []⟩)
      = [.error .reservedBits, .error .unassignedOp, .error .unassignedOp] := by decide
theorem test_encode_words :
    ([.rdbits 13#8 false, .rdbits 64#8 true, .rdbytes 0#32 [], .wrbits 64#8 1#64, .wrbytes 0#32 [], .padding, .flush].map
      fun i => (encode i).cmd)
      = [0x1000000D#32, 0x10010040#32, 0x11000000#32, 0x20000040#32, 0x21000000#32, 0x22000000#32, 0x23000000#32] := by
  decide
-- R84: SKIPBITS 4 is RDBITS.D 4 (95, P3 step 8); ALIGNW with p = 4 is PADDING, WRBITS 4, 0 (steps 3 and 4)
theorem test_assemble_pseudo :
    (Asm.skipbits 4#8).assemble = [⟨0x10010004#32, 0#64, []⟩] ∧
    (Asm.alignw 4#8).assemble = [⟨0x22000000#32, 0#64, []⟩, ⟨0x20000004#32, 0#64, []⟩] := by decide
theorem test_asm_text : (Asm.wrbytes 2#32 [1#8, 255#8]).text = "WRBYTES 2, [1, 255]" := by decide
theorem test_decodeTableWord_rows :
    ([0x10000000, 0x11000000, 0x20000000, 0x21000000, 0x22000000, 0x23000000, 0x24000000].map (decodeTableWord 32))
      = [some (.rdbits 0#8 false), some (.rdbytes 0#32 []), some (.wrbits 0#8 0#64), some (.wrbytes 0#32 []),
         some .padding, some .flush, none] := by decide
-- the operand above the word, the buffer above the operand
theorem test_decodeTableWord_operand :
    decodeTableWord 112 0x0B0A000000000000000221000000 = some (.wrbytes 2#32 [0x0A#8, 0x0B#8]) := by decide

/-! ### Bit order and status codes -/

-- 43_bitordertable.md R174; 95, BitOrderTable
theorem test_reverseBits_spots :
    ([0x00#8, 0x01#8, 0x02#8, 0x0F#8, 0x30#8, 0x6E#8, 0x5D#8, 0xA5#8, 0xFF#8, 0xE2#8].map reverseBits)
      = [0x00#8, 0x80#8, 0x40#8, 0xF0#8, 0x0C#8, 0x76#8, 0xBA#8, 0xA5#8, 0xFF#8, 0x47#8] := by decide
-- 43_bitordertable.md R174: exactly 16 bytes are their own reversal
theorem test_sixteen_palindromes : (bitOrderTable.zipIdx.filter fun e => e.1.toNat == e.2).length = 16 := by
  decide
-- 30_encoding.md R81
theorem test_status_codes :
    ([.ok, .endOfStream, .transportError, .countRangeError, .illegalCommand].map Status.code)
      = [0#3, 1#3, 2#3, 3#3, 4#3] ∧
    ([0#3, 1#3, 2#3, 3#3, 4#3, 5#3, 6#3, 7#3].map Status.ofCode)
      = [some .ok, some .endOfStream, some .transportError, some .countRangeError, some .illegalCommand, none, none, none] := by
  decide

/-! ### The commands (95_test_vectors.md) -/

-- RB-4
theorem test_rdbits_across_refill :
    endsWith (exec (.rdbits 64#8 false) (reading msb 0x123456789ABCDEF 63 [.data [0xFF, 0, 0, 0, 0, 0, 0, 0]] []))
      (fun t => t.readerPort.responses == [resp .ok 64 0x02468ACF13579BDF 0 []] && t.reader.valid == 63#7 &&
        readerContent t.reader == 0x7F00000000000000) = true := by decide
-- RB-13
theorem test_rdbits_lsb_first :
    endsWith (exec (.rdbits 12#8 false) (reading lsb 0 0 [] [0x6E, 0x5D]))
      (fun t => t.readerPort.responses == [resp .ok 12 0x76B 0 []] && t.reader.valid == 4#7 &&
        readerContent t.reader == 0xA) = true := by decide
-- BY-3
theorem test_rdbytes_short_chunk :
    endsWith (exec (.rdbytes 3#32 [0xEE, 0xEE, 0xEE]) (reading msb 0xBCD 12 [] []))
      (fun t => t.readerPort.responses == [resp .endOfStream 1 0 0 [0xBC, 0xEE, 0xEE]] && t.reader.valid == 0#7) = true := by
  decide
-- BY-6
theorem test_rdbytes_transport_error :
    endsWith (exec (.rdbytes 16#32 (List.replicate 16 0xEE))
        (reading msb 0 0 [.data [1, 2, 3, 4, 5, 6, 7, 8], .error ⟨9⟩] []))
      (fun t => t.readerPort.responses ==
          [resp .transportError 8 0 9 ([1, 2, 3, 4, 5, 6, 7, 8] ++ List.replicate 8 0xEE)] &&
        t.reader.valid == 0#7 && t.source.log.length == 2) = true := by decide
-- WB-4, R129
theorem test_wrbits_fills_register :
    endsWith (exec (.wrbits 8#8 0xA5#64) (writing msb 0x123456789ABCDEF 60 [.ok]))
      (fun t => t.writerPort.responses == [resp .ok 8 0 0 []] && t.writer == ⟨msb, 5#64, 4#6⟩ &&
        t.sink.log == [⟨[0x12, 0x34, 0x56, 0x78, 0x9A, 0xBC, 0xDE, 0xFA], .ok⟩]) = true := by decide
-- WB-10
theorem test_wrbits_sink_fails :
    endsWith (exec (.wrbits 64#8 0xFFFFFFFFFFFFFFFF#64) (writing msb 0xA 4 [.error 3 ⟨7⟩]))
      (fun t => t.writerPort.responses == [resp .transportError 3 0 7 []] && t.writer == ⟨msb, 0xA#64, 4#6⟩ &&
        t.sink.log.map (fun w => w.bytes.take 3) == [[0xAF, 0xFF, 0xFF]]) = true := by decide
-- WY-4
theorem test_wrbytes_unaligned :
    endsWith (exec (.wrbytes 8#32 [1, 2, 3, 4, 5, 6, 7, 8]) (writing msb 0xF 4 [.ok]))
      (fun t => t.writerPort.responses == [resp .ok 8 0 0 []] && t.writer.valid == 4#6 && writerContent t.writer == 8 &&
        t.sink.log == [⟨[0xF0, 0x10, 0x20, 0x30, 0x40, 0x50, 0x60, 0x70], .ok⟩]) = true := by decide
-- WY-5
theorem test_wrbytes_second_write_fails :
    endsWith (exec (.wrbytes 16#32 [1, 2, 3, 4, 5, 6, 7, 8, 9, 10, 11, 12, 13, 14, 15, 16]) (writing msb 0 0 [.ok, .error 5 ⟨7⟩]))
      (fun t => t.writerPort.responses == [resp .transportError 8 0 7 []] && t.writer.valid == 0#6 &&
        t.sink.log.map (fun w => w.bytes) == [[1, 2, 3, 4, 5, 6, 7, 8], [9, 10, 11, 12, 13, 14, 15, 16]]) = true := by
  decide
-- FL-9
theorem test_padding_of_fifty :
    endsWith (exec .padding (writing msb 0x3FFFFFFFFFFFF 50 []))
      (fun t => t.writerPort.responses == [resp .ok 6 0 0 []] && t.writer.valid == 50#6) = true := by decide
-- FL-6, 20_memory.md R54
theorem test_flush_lsb_first :
    endsWith (exec .flush (writing lsb 3 4 []))
      (fun t => t.writerPort.responses == [resp .ok 0 0 0 []] && t.writer.valid == 0#6 &&
        t.sink.log == [⟨[0x0C], .ok⟩]) = true := by decide
-- FL-7
theorem test_flush_sink_fails :
    endsWith (exec .flush (writing msb 0xABC 12 [.error 1 ⟨7⟩]))
      (fun t => t.writerPort.responses == [resp .transportError 1 0 7 []] && t.writer == ⟨msb, 0xABC#64, 12#6⟩ &&
        t.sink.log.map (fun w => w.bytes) == [[0xAB, 0xC0]]) = true := by decide

/-! ### The machine -/

-- 95, Decode, last row; R78
theorem test_step_illegal_word :
    endsWith (step (issued .writer 0 0 [] State.reset))
      (fun t => t == { State.reset with writerPort := ⟨[], none, [resp .illegalCommand 0 0 0 []]⟩ }) = true := by
  decide
-- each row of the table runs as the first command after reset, with operands of zeros
theorem test_step_rows_from_reset :
    ([0x10000000, 0x11000000, 0x20000000, 0x21000000, 0x22000000, 0x23000000].map fun w =>
      endsWith (step (State.reset.withFetchWord 32 w))
        (fun t => (t.readerPort.responses ++ t.writerPort.responses) == [resp .ok 0 0 0 []])) =
      [true, true, true, true, true, true] := by decide
-- R219, R233: a read waits on a silent source, and a reset ends it without a response
theorem test_waiting_read_ended_by_reset :
    endsWith (step (issued .reader 0x10000008 0 []
        { State.reset with source := ⟨[], .silent, []⟩, agenda := [.reset .reader] }))
      (fun t => t.readerPort.current.isSome && t.readerPort.responses == [] &&
        endsWith (step t) (fun u => u.readerPort == Port.idle && u.reader == ⟨msb, 0#64, 0#7⟩)) = true := by
  decide

/-! ### Witnesses: encoding -/

theorem witness_EncodeUndoesDecode :
    decode .writer ⟨0x20000008#32, 0xA5#64, []⟩ = .ok (.wrbits 8#8 0xA5#64) ∧
    decode .writer ⟨0x21000000#32, 0xFFFFFFFF00000001#64, [7#8]⟩ = .ok (.wrbytes 1#32 [7#8]) ∧
    decode .reader ⟨0x11000000#32, 1#64, [7#8]⟩ = .ok (.rdbytes 1#32 [7#8]) := by decide
theorem witness_IllegalExactlyWithoutRow : decode .reader ⟨0x100000FF#32, 0#64, []⟩ = .ok (.rdbits 255#8 false) := by
  decide

/-! ### Witnesses: RDBITS -/

theorem witness_RdbitsRejectsCountAbove64 : 64 < (65#8).toNat ∧ 64 < (255#8).toNat := by decide
theorem witness_RdbitsServedFromRegister :
    let s := reading msb 0x14 5 [] []
    (5#8).toNat ≤ 64 ∧ (5#8).toNat ≤ s.reader.valid.toNat ∧ (0#8).toNat ≤ s.reader.valid.toNat := by decide
theorem witness_RdbitsRefillWithEnoughBits :
    let s := reading msb 5 3 [.data [0xF0]] []
    (11#8).toNat ≤ 64 ∧ s.reader.valid.toNat < (11#8).toNat ∧ s.source.answer = some (.data [0xF0]) ∧
      ([0xF0] : List Byte).length ≤ 8 ∧ (11#8).toNat - s.reader.valid.toNat ≤ 8 * ([0xF0] : List Byte).length := by decide
theorem witness_RdbitsShortReturn :
    let s := reading msb 5 3 [.data [0xF0]] []
    (12#8).toNat ≤ 64 ∧ s.reader.valid.toNat < (12#8).toNat ∧ s.source.answer = some (.data [0xF0]) ∧
      ([0xF0] : List Byte).length ≤ 8 ∧ 8 * ([0xF0] : List Byte).length < (12#8).toNat - s.reader.valid.toNat := by decide
theorem witness_RdbitsTransportErrorKeepsUnit :
    let s := reading msb 5 3 [.error ⟨4⟩] []
    (64#8).toNat ≤ 64 ∧ s.reader.valid.toNat < (64#8).toNat ∧ s.source.answer = some (.error ⟨4⟩) := by decide
theorem witness_RdbitsDiscardChangesOnlyValue :
    let s := reading msb 0xAFE 12 [] []
    ∃ t, exec (.rdbits 12#8 false) s = .next t ∧ readerGave s t (resp .ok 12 0xAFE 0 []) :=
  exists_such (by decide)
theorem witness_RdbitsConservesTheStream :
    let s := reading msb 5 3 [.data [0xF0]] []
    ∃ t, exec (.rdbits 12#8 false) s = .next t ∧ readerGave s t (resp .endOfStream 11 0x5F0 0 []) :=
  exists_such (by decide)
theorem witness_RdbitsAsksOnlyWhenShort :
    let s := reading msb 5 3 [.data [0xF0]] []
    (∃ t, exec (.rdbits 3#8 true) s = .next t ∧ (repliesSince s t).length = 0) ∧
    (∃ t, exec (.rdbits 4#8 true) s = .next t ∧ (repliesSince s t).length = 1) ∧
    (∃ t, exec (.rdbits 65#8 true) s = .next t ∧ (repliesSince s t).length = 0) :=
  ⟨exists_such (by decide), exists_such (by decide), exists_such (by decide)⟩
theorem witness_RdbitsAfterEndOfStream :
    let s := reading msb 0x14 5 [] [1, 2]
    s.source.Streams [1, 2] ∧
      ∃ t, exec (.rdbits 22#8 false) s = .next t ∧ readerGave s t (resp .endOfStream 21 0x140102 0 []) :=
  ⟨by decide, exists_such (by decide)⟩

/-! ### Witnesses: RDBYTES -/

theorem witness_RdbytesOfOneChunk :
    let s := reading msb 0xBCD 12 [.error ⟨4⟩] [1]
    1 ≤ (3#32).toNat ∧ (3#32).toNat ≤ 8 ∧ ([0xEE, 0xEE, 0xEE] : List Byte).length = (3#32).toNat ∧
    (∃ t, exec (.rdbits (BitVec.ofNat 8 (8 * (3#32).toNat)) false) s = .next t ∧
      readerGave s t (resp .transportError 0 0 4 [])) ∧
    (∃ t, exec (.rdbits (BitVec.ofNat 8 (8 * (1#32).toNat)) false) s = .next t ∧ readerGave s t (resp .ok 8 0xBC 0 [])) :=
  ⟨by decide, by decide, by decide, exists_such (by decide), exists_such (by decide)⟩
theorem witness_RdbytesOfOneChunk_short :
    let s := reading msb 0xBCD 12 [] []
    ∃ t, exec (.rdbits (BitVec.ofNat 8 (8 * (8#32).toNat)) false) s = .next t ∧
      readerGave s t (resp .endOfStream 12 0xBCD 0 []) := exists_such (by decide)
theorem witness_RdbytesConservesTheStream :
    let s := reading msb 0xBCD 12 [] [1]
    (∃ t, exec (.rdbytes 3#32 [0xEE, 0xEE, 0xEE]) s = .next t ∧
      readerGave s t (resp .endOfStream 2 0 0 [0xBC, 0xD0, 0xEE])) ∧
    (∃ t, exec (.rdbytes 2#32 [0xEE, 0xEE]) s = .next t ∧ readerGave s t (resp .ok 2 0 0 [0xBC, 0xD0])) :=
  ⟨exists_such (by decide), exists_such (by decide)⟩
theorem witness_RdbytesFromStream :
    let s := reading msb 0xBCD 12 [] [1]
    ([0xEE, 0xEE] : List Byte).length = (2#32).toNat ∧ ([0xEE, 0xEE, 0xEE] : List Byte).length = (3#32).toNat ∧
      s.source.Streams [1] ∧ 8 * (2#32).toNat ≤ s.reader.valid.toNat + 8 * 1 ∧
      ¬ 8 * (3#32).toNat ≤ s.reader.valid.toNat + 8 * 1 := by decide
theorem witness_RdbytesTransportErrorReportsChunks :
    let s := reading msb 0 0 [.data [1, 2, 3, 4, 5, 6, 7, 8], .error ⟨9⟩] []
    ∃ t, exec (.rdbytes 9#32 (List.replicate 9 0xEE)) s = .next t ∧
      readerGave s t (resp .transportError 8 0 9 [1, 2, 3, 4, 5, 6, 7, 8, 0xEE]) := exists_such (by decide)

/-! ### Witnesses: WRBITS -/

theorem witness_WrbitsRejectsCountAbove64 : 64 < (65#8).toNat := by decide
theorem witness_WrbitsWithRoom :
    let s := writing msb 0xF 62 []
    (1#8).toNat < 64 - s.writer.valid.toNat ∧ (0#8).toNat < 64 - s.writer.valid.toNat := by decide
theorem witness_WrbitsFillAccepted :
    let s := writing msb 0xF 62 []
    (2#8).toNat ≤ 64 ∧ (64#8).toNat ≤ 64 ∧ 64 - s.writer.valid.toNat ≤ (2#8).toNat ∧ s.sink.answer 8 = some .ok := by
  decide
theorem witness_WrbitsFillFailedKeepsUnit :
    let s := writing msb 0xF 62 [.error 8 ⟨7⟩]
    (2#8).toNat ≤ 64 ∧ 64 - s.writer.valid.toNat ≤ (2#8).toNat ∧ s.sink.answer 8 = some (.error 8 ⟨7⟩) ∧ 8 ≤ 8 := by
  decide
theorem witness_WrbitsConservesTheStream :
    (∃ t, exec (.wrbits 8#8 0xA5#64) (writing lsb 0xF 62 []) = .next t ∧
      writerGave (writing lsb 0xF 62 []) t (resp .ok 8 0 0 [])) ∧
    (∃ t, exec (.wrbits 8#8 0xA5#64) (writing lsb 0xF 62 [.error 0 ⟨7⟩]) = .next t ∧
      writerGave (writing lsb 0xF 62 [.error 0 ⟨7⟩]) t (resp .transportError 0 0 7 [])) :=
  ⟨exists_such (by decide), exists_such (by decide)⟩
theorem witness_WrbitsEmitsOnlyFullRegisters :
    let s := writing lsb 0xF 62 []
    (∃ t, exec (.wrbits 2#8 0#64) s = .next t ∧ (writesSince s t).length = 1) ∧
    (∃ t, exec (.wrbits 1#8 0#64) s = .next t ∧ (writesSince s t).length = 0) :=
  ⟨exists_such (by decide), exists_such (by decide)⟩

/-! ### Witnesses: PADDING and FLUSH -/

theorem witness_PaddingIsLeastAlignment :
    let s := writing msb 1 1 []
    ∃ t, exec .padding s = .next t ∧ writerGave s t (resp .ok 7 0 0 []) := exists_such (by decide)
/-- 95, P3 steps 3 and 4. -/
theorem witness_AlignwReachesByteBoundary :
    let s := writing lsb 0xA112233 28 []
    let r := resp .ok 4 0 0 []
    ∃ t, exec .padding s = .next t ∧ writerGave s t r ∧
      ∃ u, exec (.wrbits (r.n.setWidth 8) 0#64) t = .next u ∧ writerGave t u (resp .ok 4 0 0 []) :=
  ⟨(writing lsb 0xA112233 28 []).endWrite _ _ _, rfl, rfl, exists_such (by decide)⟩
theorem witness_FlushOfEmptyWriterEmitsNothing :
    (writing msb 0xF 0 []).writer.valid = 0#6 ∧
    ∃ t, exec .flush (writing msb 5 3 []) = .next t ∧ writerGave (writing msb 5 3 []) t (resp .ok 0 0 0 []) :=
  ⟨by decide, exists_such (by decide)⟩
theorem witness_FlushAccepted :
    let s := writing msb 0x7FFFFFFFFFFFFFFF 63 []
    s.writer.valid ≠ 0#6 ∧ s.sink.answer ((s.writer.valid.toNat + 7) / 8) = some .ok := by decide
theorem witness_FlushFailedKeepsUnit :
    let s := writing msb 0xABC 12 [.error 2 ⟨7⟩]
    s.writer.valid ≠ 0#6 ∧ s.sink.answer ((s.writer.valid.toNat + 7) / 8) = some (.error 2 ⟨7⟩) ∧
      2 ≤ (s.writer.valid.toNat + 7) / 8 := by decide
theorem witness_FlushDeliversAllBits :
    let s := writing lsb 0xABC 12 []
    ∃ t, exec .flush s = .next t ∧ writerGave s t (resp .ok 0 0 0 []) := exists_such (by decide)
/-! ### Witnesses: WRBYTES -/

theorem witness_WrbytesIntoAcceptingSink :
    ([1, 2, 3] : List Byte).length = (3#32).toNat ∧ (writing msb 0xF 4 []).sink.Accepts := by decide
theorem witness_WrbytesConservesTheStream :
    (∃ t, exec (.wrbytes 9#32 [1, 2, 3, 4, 5, 6, 7, 8, 9]) (writing msb 0 56 [.ok, .error 2 ⟨7⟩]) = .next t ∧
      writerGave (writing msb 0 56 [.ok, .error 2 ⟨7⟩]) t (resp .transportError 8 0 7 [])) ∧
    (∃ t, exec (.wrbytes 1#32 [1]) (writing msb 0 55 []) = .next t ∧
      writerGave (writing msb 0 55 []) t (resp .ok 1 0 0 [])) :=
  ⟨exists_such (by decide), exists_such (by decide)⟩
/-- V1-3 under the other order: nine bytes, so both a full register and a flush are emitted. -/
theorem witness_WriteFlushReadRoundTrip :
    let s := writing lsb 0xFF 0 []
    let bytes : List Byte := [1, 2, 3, 4, 5, 6, 7, 8, 9]
    s.writer.valid = 0#6 ∧ (List.replicate 9 (0xEE : Byte)).length = (9#32).toNat ∧
      ∃ t u, exec (.wrbytes 9#32 bytes) s = .next t ∧ exec .flush t = .next u ∧
        (∀ w ∈ writesSince s u, w.reply = .ok) ∧
        (writesSince s u).flatMap (fun w => w.bytes) = [0x80, 0x40, 0xC0, 0x20, 0xA0, 0x60, 0xE0, 0x10, 0x90] := by
  refine ⟨by decide, by decide, ?_⟩
  have h : endsWith (exec (.wrbytes 9#32 [1, 2, 3, 4, 5, 6, 7, 8, 9]) (writing lsb 0xFF 0 []))
      (fun t => endsWith (exec .flush t) fun u =>
        (writesSince (writing lsb 0xFF 0 []) u).all (fun w => w.reply == .ok) &&
        (writesSince (writing lsb 0xFF 0 []) u).flatMap (fun w => w.bytes) ==
          [0x80, 0x40, 0xC0, 0x20, 0xA0, 0x60, 0xE0, 0x10, 0x90]) = true := by decide
  obtain ⟨t, ht, hp⟩ := exists_next h
  obtain ⟨u, hu, hq⟩ := exists_next hp
  simp only [Bool.and_eq_true, List.all_eq_true, beq_iff_eq] at hq
  exact ⟨t, u, ht, hu, hq.1, hq.2⟩

/-! ### Witnesses: both byte commands, bit order, frames -/

theorem witness_ByteCommandsBoundTheirRequests :
    (∃ t, exec (.rdbytes 9#32 (List.replicate 9 0xEE)) (reading msb 0 0 [] (List.replicate 9 1)) = .next t ∧
      (repliesSince (reading msb 0 0 [] (List.replicate 9 1)) t).length = 2) ∧
    (∃ t, exec (.wrbytes 9#32 (List.replicate 9 1)) (writing msb 0 56 []) = .next t ∧
      (writesSince (writing msb 0 56 []) t).length = 2) :=
  ⟨exists_such (by decide), exists_such (by decide)⟩
theorem witness_ReverseBitsMirrorsPositions : 0 < 8 ∧ 7 < 8 := by decide
/-- Two machines that differ in orders, registers, a response's value and an emitted byte, and two commands that differ in
their data; one command that completes, one that waits, one that is refused. -/
theorem witness_BitOrderLeavesCountsAlone :
    let s := { reading msb 0xBCD 12 [] [1] with
      writer := ⟨msb, 3#64, 62#6⟩, sink := ⟨[.ok, .error 4 ⟨7⟩], .silent, [⟨[1], .ok⟩]⟩,
      writerPort := ⟨[], none, [resp .ok 8 0 0 []]⟩, readerPort := ⟨[], none, [resp .ok 8 5 0 []]⟩ }
    let s' := { s with
      reader := ⟨lsb, 0x123#64, 12#7⟩, writer := ⟨lsb, 1#64, 62#6⟩, cfgOrderR := lsb,
      sink := ⟨s.sink.script, .silent, [⟨[2], .ok⟩]⟩, readerPort := ⟨[], none, [resp .ok 8 9 0 []]⟩ }
    s.SameCounts s' ∧ s ≠ s' ∧
      (Instr.rdbytes 3#32 [1, 2, 3]).shape = (Instr.rdbytes 3#32 [9, 9, 9]).shape ∧
      (Instr.wrbits 2#8 0#64).shape = (Instr.wrbits 2#8 3#64).shape ∧
      (∃ t, exec (.rdbytes 3#32 [1, 2, 3]) s = .next t ∧
        readerGave s t (resp .endOfStream 2 0 0 [0xBC, 0xD0, 3])) ∧
      (∃ t, exec (.wrbits 2#8 0#64) s = .next t ∧ writerGave s t (resp .ok 2 0 0 [])) ∧
      exec (.wrbytes 1#32 [1]) { s with sink := ⟨[], .silent, s.sink.log⟩ } = .fault .awaitingSink ∧
      exec (.wrbytes 1#32 []) s = .refused .bufferNotLen :=
  ⟨by decide, by decide, by decide, by decide, exists_such (by decide), exists_such (by decide), rfl, rfl⟩
theorem witness_BitOrderLeavesCountsAlone_step :
    let s := issued .writer 0x20000002 1 [] (writing msb 3 62 [])
    let s' := issued .writer 0x20000002 1 [] (writing lsb 1 62 [])
    s.SameCounts s' ∧ ∃ t, step s = .next t ∧ t.sink.log = [⟨[0, 0, 0, 0, 0, 0, 0, 13], .ok⟩] :=
  ⟨by decide, exists_such (by decide)⟩
theorem witness_ReaderCommandFrame :
    (Instr.rdbytes 1#32 [0xEE]).port = .reader ∧
      ∃ t, exec (.rdbytes 1#32 [0xEE]) (reading msb 0xBCD 12 [] [1]) = .next t ∧ t.reader.valid = 4#7 :=
  ⟨rfl, exists_such (by decide)⟩
theorem witness_WriterCommandFrame :
    (Instr.wrbytes 1#32 [0xEE]).port = .writer ∧
      ∃ t, exec (.wrbytes 1#32 [0xEE]) (writing msb 0 60 []) = .next t ∧ t.writer.valid = 4#6 :=
  ⟨rfl, exists_such (by decide)⟩
theorem witness_TransportErrorKeepsUnit :
    (∃ t, exec (.rdbits 8#8 false) (reading msb 5 3 [.error ⟨4⟩] []) = .next t ∧
      readerGave (reading msb 5 3 [.error ⟨4⟩] []) t (resp .transportError 0 0 4 [])) ∧
    (∃ t, exec (.wrbits 2#8 0#64) (writing msb 5 62 [.error 1 ⟨4⟩]) = .next t ∧
      writerGave (writing msb 5 62 [.error 1 ⟨4⟩]) t (resp .transportError 1 0 4 [])) ∧
    (∃ t, exec .flush (writing msb 5 3 [.error 0 ⟨4⟩]) = .next t ∧
      writerGave (writing msb 5 3 [.error 0 ⟨4⟩]) t (resp .transportError 0 0 4 [])) :=
  ⟨exists_such (by decide), exists_such (by decide), exists_such (by decide)⟩
/-- Contents 0b101 under different bits above the count. -/
theorem witness_GarbageBitsCannotBeSeen :
    State.SameButGarbage (reading msb 0xFD 3 [] []) (reading msb 0x05 3 [] []) ∧
      (reading msb 0xFD 3 [] []).reader ≠ (reading msb 0x05 3 [] []).reader ∧
      ∃ t, exec (.rdbits 2#8 false) (reading msb 0xFD 3 [] []) = .next t ∧ t.reader.valid = 1#7 :=
  ⟨by decide, by decide, exists_such (by decide)⟩
/-- A read of one bit from an empty register: both kinds of answer outside the interface. -/
theorem witness_OutsideInterfaceIsRefused :
    (reading msb 0 0 [.dataWithError [1] ⟨4⟩] []).source.answer = some (.dataWithError [1] ⟨4⟩) ∧
    (SourceAnswer.dataWithError [1] ⟨4⟩).fits = false ∧
    (reading msb 0 0 [.data (List.replicate 9 1)] []).source.answer = some (.data (List.replicate 9 1)) ∧
    (SourceAnswer.data (List.replicate 9 1)).fits = false ∧
    (1#8).toNat ≤ 64 ∧ (0#7).toNat < (1#8).toNat := by decide
/-- One full refill, then an answer outside the interface, to a read of nine bytes. -/
theorem witness_OutsideInterfaceIsRefused_rdbytes :
    let good : List SourceAnswer := [.data (List.replicate 8 1)]
    let s := reading msb 0x7F 7 (good ++ .data (List.replicate 9 1) :: [.error ⟨4⟩]) []
    (List.replicate 9 (0xEE : Byte)).length = (9#32).toNat ∧
      s.source.script = good ++ .data (List.replicate 9 1) :: [.error ⟨4⟩] ∧ (∀ a ∈ good, a.isFull = true) ∧
      s.reader.valid.toNat + 64 * good.length < 8 * (9#32).toNat := by decide
/-- The fill at its least count, 2 bits of room. -/
theorem witness_OutsideInterfaceIsRefused_wrbits :
    (2#8).toNat ≤ 64 ∧ 64 ≤ (writing msb 3 62 [.other]).writer.valid.toNat + (2#8).toNat ∧
    (writing msb 3 62 [.other]).sink.answer 8 = some .other ∧ SinkAnswer.other.fits 8 = false ∧
    (writing msb 3 62 [.error 9 ⟨4⟩]).sink.answer 8 = some (.error 9 ⟨4⟩) ∧ (SinkAnswer.error 9 ⟨4⟩).fits 8 = false := by
  decide
theorem witness_OutsideInterfaceIsRefused_wrbytes :
    let good : List SinkAnswer := [.ok]
    let s := writing msb 0 56 (good ++ .error 9 ⟨4⟩ :: [])
    (List.replicate 9 (0xEE : Byte)).length = (9#32).toNat ∧ s.sink.script = good ++ .error 9 ⟨4⟩ :: [] ∧
      (∀ a ∈ good, a = .ok) ∧ 64 * (good.length + 1) ≤ s.writer.valid.toNat + 8 * (9#32).toNat := by decide
theorem witness_OutsideInterfaceIsRefused_flush :
    (writing msb 5 3 [.error 2 ⟨4⟩]).writer.valid ≠ 0#6 ∧
    (writing msb 5 3 [.error 2 ⟨4⟩]).sink.answer ((3 + 7) / 8) = some (.error 2 ⟨4⟩) ∧
    (SinkAnswer.error 2 ⟨4⟩).fits ((3 + 7) / 8) = false ∧
    ([1] : List Byte).length ≠ (2#32).toNat := by decide
/-- Lined-up answers of every kind within the interface, and silence after them where the command asks for no more. -/
theorem witness_WellFormedCommandsComplete :
    let s := { reading msb 5 3 [.data (List.replicate 8 1), .error ⟨4⟩, .data []] [] with
      writer := ⟨msb, 5#64, 12#6⟩, sink := ⟨[.ok, .error 2 ⟨7⟩], .silent, []⟩ }
    (∀ i ∈ [Instr.rdbits 64#8 false, .rdbytes 9#32 (List.replicate 9 0xEE)],
      i.wellFormed = true ∧ i.port = .reader ∧ s.source.AnswersWithin i.maxRequests) ∧
    (∀ i ∈ [Instr.wrbits 64#8 1#64, .wrbytes 9#32 (List.replicate 9 0xEE), .padding, .flush],
      i.wellFormed = true ∧ i.port = .writer ∧ s.sink.AnswersWithin i.maxRequests (i.writeSize s.writer)) := by
  decide

/-! ### Witnesses: the machine -/

theorem witness_StepRunsTheDecodedCommand :
    let s := issued .reader 0x10000003 0 [] (reading msb 5 3 [] [])
    s.agenda = [.serve .reader] ∧
      (s.port .reader).accept = some (⟨0x10000003#32, 0#64, []⟩, ⟨[], some ⟨0x10000003#32, 0#64, []⟩, []⟩) ∧
      decode .reader ⟨0x10000003#32, 0#64, []⟩ = .ok (.rdbits 3#8 false) ∧
      ∃ t, exec (.rdbits 3#8 false) { s.setPort .reader ⟨[], some ⟨0x10000003#32, 0#64, []⟩, []⟩ with agenda := [] } = .next t ∧
        t.reader.valid = 0#7 :=
  ⟨by decide, by decide, by decide, exists_such (by decide)⟩
theorem witness_StepRunsTheDecodedCommand_stops :
    exec (.rdbits 1#8 false) { State.reset with source := ⟨[], .silent, []⟩ } = .fault .awaitingSource ∧
    exec (.rdbytes 1#32 []) State.reset = .refused .bufferNotLen := ⟨rfl, rfl⟩
theorem witness_IllegalWordIsAnswered :
    let s := issued .writer 0x24000000 0 [] State.reset
    s.agenda = [.serve .writer] ∧
      (s.port .writer).accept = some (⟨0x24000000#32, 0#64, []⟩, ⟨[], some ⟨0x24000000#32, 0#64, []⟩, []⟩) ∧
      decode .writer ⟨0x24000000#32, 0#64, []⟩ = .error .unassignedOp := by decide
theorem witness_IdleUnitDoesNothing :
    let s : State := { State.reset with agenda := [.serve .writer] }
    State.reset.agenda = [] ∧ s.agenda = [.serve .writer] ∧ (s.port .writer).accept = none := by decide
/-- The command of that word is taken up on a unit's turn, and decodes. -/
abbrev takesUp (s : State) (p : PortId) (c : Command) (i : Instr) : Prop :=
  s.agenda = [.serve p] ∧ (s.port p).accept = some (c, ⟨[], some c, []⟩) ∧ decode p c = .ok i

theorem witness_SilentTransportKeepsUnitWaiting_rdbits :
    let s := issued .reader 0x10000008 0 [] { State.reset with source := ⟨[], .silent, []⟩ }
    takesUp s .reader ⟨0x10000008#32, 0#64, []⟩ (.rdbits 8#8 false) ∧ (Instr.rdbits 8#8 false).AwaitsSilence s :=
  ⟨by decide, by decide, by decide, rfl⟩
/-- One full refill serves the first eight bytes, and none comes for the ninth. -/
theorem witness_SilentTransportKeepsUnitWaiting_rdbytes :
    let buf : List Byte := List.replicate 9 0xEE
    let s := issued .reader 0x11000000 9 buf
      { reading msb 0x7F 7 [] [] with source := ⟨[.data (List.replicate 8 1)], .silent, []⟩ }
    takesUp s .reader ⟨0x11000000#32, 9#64, buf⟩ (.rdbytes 9#32 buf) ∧ (Instr.rdbytes 9#32 buf).AwaitsSilence s :=
  ⟨by decide, by decide, rfl, by decide, by decide⟩
theorem witness_SilentTransportKeepsUnitWaiting_wrbits :
    let s := issued .writer 0x20000002 1 [] { writing msb 3 62 [] with sink := ⟨[], .silent, []⟩ }
    takesUp s .writer ⟨0x20000002#32, 1#64, []⟩ (.wrbits 2#8 1#64) ∧ (Instr.wrbits 2#8 1#64).AwaitsSilence s :=
  ⟨by decide, by decide, by decide, rfl⟩
/-- The sink accepts the first full register, and does not answer the second write. -/
theorem witness_SilentTransportKeepsUnitWaiting_wrbytes :
    let buf : List Byte := List.replicate 9 0xEE
    let s := issued .writer 0x21000000 9 buf { writing msb 0 56 [] with sink := ⟨[.ok], .silent, []⟩ }
    takesUp s .writer ⟨0x21000000#32, 9#64, buf⟩ (.wrbytes 9#32 buf) ∧ (Instr.wrbytes 9#32 buf).AwaitsSilence s :=
  ⟨by decide, by decide, rfl, by decide, by decide⟩
theorem witness_SilentTransportKeepsUnitWaiting_flush :
    let s := issued .writer 0x23000000 0 [] { writing msb 5 3 [] with sink := ⟨[], .silent, []⟩ }
    takesUp s .writer ⟨0x23000000#32, 0#64, []⟩ .flush ∧ Instr.flush.AwaitsSilence s :=
  ⟨by decide, by decide, rfl⟩
theorem witness_ConfigureAndAttachTurns :
    (∀ t ∈ [Turn.configure .reader lsb, .configure .writer lsb, .attachSource [.error ⟨4⟩] .silent,
        .attachSink [.ok] .accepting, .serve .reader, .reset .writer],
      { State.reset with agenda := [t] }.agenda = t :: []) ∧
    (∃ t, step { State.reset with agenda := [.configure .reader lsb] } = .next t ∧
      t.cfgOrderR = lsb ∧ t.cfgOrderW = msb) ∧
    (∃ t, step { State.reset with agenda := [.configure .writer lsb] } = .next t ∧
      t.cfgOrderR = msb ∧ t.cfgOrderW = lsb) ∧
    (∃ t, step { State.reset with agenda := [.reset .writer], cfgOrderW := lsb } = .next t ∧ t.cfgOrderW = lsb) :=
  ⟨by decide, exists_such (by decide), exists_such (by decide), exists_such (by decide)⟩
theorem witness_ResetConstructsIdleUnit :
    let s : State := { reading msb 5 3 [] [] with agenda := [.reset .reader], cfgOrderR := lsb }
    let u : State := { writing msb 5 3 [] with agenda := [.reset .writer], cfgOrderW := lsb }
    s.agenda = [.reset .reader] ∧ s.readerPort.current = none ∧
      u.agenda = [.reset .writer] ∧ u.writerPort.current = none := by decide
theorem witness_ResetEndsCommandWithoutResponse :
    let c : Command := ⟨0x10000008#32, 0#64, []⟩
    let s : State := { reading msb 5 3 [] [] with agenda := [.reset .reader], readerPort := ⟨[], some c, []⟩ }
    let u : State := { writing msb 5 3 [] with agenda := [.reset .writer], writerPort := ⟨[], some c, []⟩ }
    s.agenda = [.reset .reader] ∧ (s.port .reader).current = some c ∧
      u.agenda = [.reset .writer] ∧ (u.port .writer).current = some c := by decide
theorem witness_OrderChangesOnlyByReset :
    (∃ t, step { State.reset with agenda := [.reset .reader], cfgOrderR := lsb } = .next t ∧ t.reader.order = lsb) ∧
    (∃ t, step { State.reset with agenda := [.reset .writer], cfgOrderW := lsb } = .next t ∧ t.writer.order = lsb) ∧
    (∃ t, step { State.reset with agenda := [.configure .reader lsb] } = .next t ∧ t.reader.order = msb) :=
  ⟨exists_such (by decide), exists_such (by decide), exists_such (by decide)⟩
/-- The count reaches 63 after a refill for one bit (R112). -/
theorem witness_StepKeepsReaderBelow64 :
    let s := issued .reader 0x10000001 0 [] (reading msb 0 0 [] (List.replicate 8 1))
    s.ReaderBelow64 ∧ ∃ t, step s = .next t ∧ t.reader.valid = 63#7 :=
  ⟨by decide, exists_such (by decide)⟩
theorem witness_StepKeepsTrafficForm :
    let s := issued .writer 0x23000000 0 [] (writing msb 5 3 [.error 1 ⟨4⟩])
    s.TrafficFits ∧ ∃ t, step s = .next t ∧ t.sink.log.length = 1 :=
  ⟨by decide, exists_such (by decide)⟩
theorem witness_StepKeepsResponseForm :
    let s := issued .reader 0x10000008 0 [] (reading msb 0 0 [] [0xA5])
    s.ResponsesFit ∧ ∃ t, step s = .next t ∧ readerGave s t (resp .ok 8 0xA5 0 []) :=
  ⟨by decide, exists_such (by decide)⟩
theorem witness_TurnsOfTheUnitsCommute :
    let s := issued .writer 0x22000000 0 [] (issued .reader 0x10000003 0 [] (reading msb 5 3 [] []))
    (∃ a, serve .reader s = .next a ∧ a.reader.valid = 0#7) ∧
    (∃ b, serve .writer s = .next b ∧ b.writerPort.responses = [resp .ok 0 0 0 []]) :=
  ⟨exists_such (by decide), exists_such (by decide)⟩
theorem witness_UnitsLearnNothingOfEachOther :
    let s := reading msb 5 3 [] []
    let s' := { writing lsb 7 9 [] with reader := s.reader, source := s.source, readerPort := s.readerPort }
    (Instr.rdbits 2#8 false).port = .reader ∧ s'.writer ≠ s.writer ∧
      (∃ t, exec (.rdbits 2#8 false) s = .next t ∧ t.reader.valid = 1#7) ∧
      (∃ t, exec .padding s' = .next t ∧ t.writer.valid = 9#6) :=
  ⟨rfl, by decide, exists_such (by decide), exists_such (by decide)⟩

end Sys2Proof.Tests
end

section
/-!
SUPPORT. The frames of the commands and what they depend on (00_scope.md R3): each of the two byte loops keeps what its bit
commands keep; a completed command ends its own unit's side alone, and its outcome is a function of that side.
-/

namespace Sys2Proof.Machine

/-! ### Sequences -/

theorem andThen_assoc {α β γ : Type} (o : Host.Outcome α Fault Refusal) (f : α → Host.Outcome β Fault Refusal)
    (g : β → Host.Outcome γ Fault Refusal) : andThen (andThen o f) g = andThen o fun a => andThen (f a) g := by
  cases o <;> rfl

/-! ### What the bit commands and the byte loops keep -/

/-- A bit read only adds to the source's record (20_memory.md R62). -/
theorem readBits_log_prefix {count : Nat} {u : ReaderUnit} {src : Source} {r : ReadResult}
    (h : readBits count u src = .next r) : src.log <+: r.source.log := by
  obtain ⟨_, rfl⟩ | ⟨_, _, rfl⟩ | ⟨_, _, reply, _, _, rfl⟩ := readBits_eq_next h
  · exact List.prefix_rfl
  · exact List.prefix_rfl
  · have hsrc : (refill count u (reply, src.answered reply)).source = src.answered reply := by
      cases reply with
      | error e => rfl
      | data bytes => simp only [refill]; split <;> rfl
    simp [hsrc]

/-- A settled write keeps the sink it was given. -/
@[simp] theorem settleWrite_sink (u after : WriterUnit) (n : Nat) (reply : SinkReply) (snk : Sink) :
    (settleWrite u after n (reply, snk)).sink = snk := by
  cases reply <;> rfl

/-- A bit write only adds to the sink's record (20_memory.md R61). -/
theorem writeBits_log_prefix {count value : Nat} {u : WriterUnit} {snk : Sink} {r : WriteResult}
    (h : writeBits count value u snk = .next r) : snk.log <+: r.sink.log := by
  obtain ⟨_, rfl⟩ | ⟨_, _, rfl⟩ | ⟨_, _, reply, _, rfl⟩ := writeBits_eq_next h
  · exact List.prefix_rfl
  · exact List.prefix_rfl
  · simp

/-- A flush never changes the order (10_state.md R26). -/
theorem flushBits_order {u : WriterUnit} {snk : Sink} {r : WriteResult} (h : flushBits u snk = .next r) :
    r.unit.order = u.order := by
  obtain ⟨_, rfl⟩ | ⟨_, reply, _, rfl⟩ := flushBits_eq_next h
  · rfl
  · cases reply <;> rfl

/-- A flush only adds to the sink's record (20_memory.md R61). -/
theorem flushBits_log_prefix {u : WriterUnit} {snk : Sink} {r : WriteResult} (h : flushBits u snk = .next r) :
    snk.log <+: r.sink.log := by
  obtain ⟨_, rfl⟩ | ⟨_, reply, _, rfl⟩ := flushBits_eq_next h
  · exact List.prefix_rfl
  · simp

/-- What every bit read keeps of the Reader and its source, the loop of RDBYTES keeps (42_byteadapter.md R150). -/
theorem readChunks_keeps {P : ReaderUnit → Source → Prop}
    (hbits : ∀ {count u src q}, readBits count u src = .next q → P u src → P q.unit q.source)
    {cs : List Nat} {i : Nat} {buf : List Byte} {u : ReaderUnit} {src : Source} {r : FillResult}
    (h : readChunks cs i buf u src = .next r) (hP : P u src) : P r.unit r.source := by
  induction cs generalizing i buf u src with
  | nil => cases h; exact hP
  | cons c cs ih =>
    obtain ⟨q, hq, ⟨_, hr⟩ | ⟨_, rfl⟩ | ⟨_, _, rfl⟩⟩ := readChunks_cons_eq_next h
    · exact ih hr (hbits hq hP)
    · exact hbits hq hP
    · exact hbits hq hP

/-- What every bit write keeps of the Writer and its sink, the loop of WRBYTES keeps (42_byteadapter.md R150). -/
theorem writeChunks_keeps {P : WriterUnit → Sink → Prop}
    (hbits : ∀ {count value u snk q}, writeBits count value u snk = .next q → P u snk → P q.unit q.sink)
    {cs : List Nat} {i : Nat} {buf : List Byte} {u : WriterUnit} {snk : Sink} {r : WriteResult}
    (h : writeChunks cs i buf u snk = .next r) (hP : P u snk) : P r.unit r.sink := by
  induction cs generalizing i u snk with
  | nil => cases h; exact hP
  | cons c cs ih =>
    obtain ⟨q, hq, ⟨_, rfl⟩ | ⟨_, hr⟩⟩ := writeChunks_cons_eq_next h
    · exact hbits (q := q) hq hP
    · exact ih hr (hbits hq hP)

/-- The loop of RDBYTES never changes the order (10_state.md R26). -/
theorem readChunks_order {cs : List Nat} {i : Nat} {buf : List Byte} {u : ReaderUnit} {src : Source} {r : FillResult}
    (h : readChunks cs i buf u src = .next r) : r.unit.order = u.order :=
  readChunks_keeps (P := fun v _ => v.order = u.order) (fun hq hP => (readBits_order hq).trans hP) h rfl

/-- The loop of RDBYTES only adds to the source's record (20_memory.md R62). -/
theorem readChunks_log_prefix {cs : List Nat} {i : Nat} {buf : List Byte} {u : ReaderUnit} {src : Source} {r : FillResult}
    (h : readChunks cs i buf u src = .next r) : src.log <+: r.source.log :=
  readChunks_keeps (P := fun _ a => src.log <+: a.log) (fun hq hP => hP.trans (readBits_log_prefix hq)) h List.prefix_rfl

/-- The loop of WRBYTES never changes the order (10_state.md R26). -/
theorem writeChunks_order {cs : List Nat} {i : Nat} {buf : List Byte} {u : WriterUnit} {snk : Sink} {r : WriteResult}
    (h : writeChunks cs i buf u snk = .next r) : r.unit.order = u.order :=
  writeChunks_keeps (P := fun v _ => v.order = u.order) (fun hq hP => (writeBits_order hq).trans hP) h rfl

/-- The loop of WRBYTES only adds to the sink's record (20_memory.md R61). -/
theorem writeChunks_log_prefix {cs : List Nat} {i : Nat} {buf : List Byte} {u : WriterUnit} {snk : Sink} {r : WriteResult}
    (h : writeChunks cs i buf u snk = .next r) : snk.log <+: r.sink.log :=
  writeChunks_keeps (P := fun _ a => snk.log <+: a.log) (fun hq hP => hP.trans (writeBits_log_prefix hq)) h List.prefix_rfl

/-! ### How a completed command ends -/

/-- A completed Reader command ends the Reader's side with one response; the order stays and the source's record grows
(10_state.md R26, R34). -/
theorem exec_reader_eq_next {i : Instr} {s t : State} (hi : i.port = .reader) (h : exec i s = .next t) :
    ∃ u src r, t = s.endRead u src r ∧ u.order = s.reader.order ∧ s.source.log <+: src.log := by
  cases i with
  | rdbits count discard =>
    obtain ⟨r, hr, rfl⟩ := execRdbits_eq_next h
    exact ⟨_, _, _, rfl, readBits_order hr, readBits_log_prefix hr⟩
  | rdbytes len buf =>
    obtain ⟨_, r, hr, rfl⟩ := execRdbytes_eq_next h
    exact ⟨_, _, _, rfl, readChunks_order hr, readChunks_log_prefix hr⟩
  | wrbits | wrbytes | padding | flush => cases hi

/-- A completed Writer command ends the Writer's side with one response; the order stays and the sink's record grows
(10_state.md R26, R34). -/
theorem exec_writer_eq_next {i : Instr} {s t : State} (hi : i.port = .writer) (h : exec i s = .next t) :
    ∃ u snk r, t = s.endWrite u snk r ∧ u.order = s.writer.order ∧ s.sink.log <+: snk.log := by
  cases i with
  | rdbits | rdbytes => cases hi
  | wrbits count value =>
    obtain ⟨r, hr, rfl⟩ := execWrbits_eq_next h
    exact ⟨_, _, _, rfl, writeBits_order hr, writeBits_log_prefix hr⟩
  | wrbytes len buf =>
    obtain ⟨_, r, hr, rfl⟩ := execWrbytes_eq_next h
    exact ⟨_, _, _, rfl, writeChunks_order hr, writeChunks_log_prefix hr⟩
  | padding => cases h; exact ⟨_, _, _, rfl, rfl, List.prefix_rfl⟩
  | flush =>
    obtain ⟨r, hr, rfl⟩ := execFlush_eq_next h
    exact ⟨_, _, _, rfl, flushBits_order hr, flushBits_log_prefix hr⟩

/-! ### What a command depends on -/

/-- The outcome of a Reader command, a stop included, is fixed by the Reader and its source: every state with these two
goes on from one and the same outcome `o` (60_exceptions.md R207). -/
theorem exec_reader_local {i : Instr} (hi : i.port = .reader) (u : ReaderUnit) (src : Source) :
    ∃ o : Host.Outcome (ReaderUnit × Source × Response) Fault Refusal,
      ∀ s : State, s.reader = u → s.source = src →
        exec i s = andThen o fun (u', src', r) => .next (s.endRead u' src' r) := by
  cases i with
  | rdbits count discard =>
    refine ⟨andThen (readBits count.toNat u src) fun r =>
      .next (r.unit, r.source, respondErr r.status r.n (if discard then 0 else r.value) r.err), ?_⟩
    rintro s rfl rfl
    simp [exec, execRdbits, andThen_assoc]
  | rdbytes len buf =>
    by_cases hl : buf.length = len.toNat
    · refine ⟨andThen (readChunks (chunkSizes len.toNat) 0 buf u src) fun r =>
        .next (r.unit, r.source, respondBuf r.status r.n r.err r.buf), ?_⟩
      rintro s rfl rfl
      simp [exec, execRdbytes, hl, andThen_assoc]
    · exact ⟨.refused .bufferNotLen, fun s _ _ => by simp [exec, execRdbytes, hl]⟩
  | wrbits | wrbytes | padding | flush => cases hi

/-- The outcome of a Writer command, a stop included, is fixed by the Writer and its sink: every state with these two
goes on from one and the same outcome `o` (60_exceptions.md R207). -/
theorem exec_writer_local {i : Instr} (hi : i.port = .writer) (u : WriterUnit) (snk : Sink) :
    ∃ o : Host.Outcome (WriterUnit × Sink × Response) Fault Refusal,
      ∀ s : State, s.writer = u → s.sink = snk →
        exec i s = andThen o fun (u', snk', r) => .next (s.endWrite u' snk' r) := by
  cases i with
  | rdbits | rdbytes => cases hi
  | wrbits count value =>
    refine ⟨andThen (writeBits count.toNat value.toNat u snk) fun r =>
      .next (r.unit, r.sink, respondErr r.status r.n 0 r.err), ?_⟩
    rintro s rfl rfl
    simp [exec, execWrbits, andThen_assoc]
  | wrbytes len buf =>
    by_cases hl : buf.length = len.toNat
    · refine ⟨andThen (writeChunks (chunkSizes len.toNat) 0 buf u snk) fun r =>
        .next (r.unit, r.sink, respondErr r.status r.n 0 r.err), ?_⟩
      rintro s rfl rfl
      simp [exec, execWrbytes, hl, andThen_assoc]
    · exact ⟨.refused .bufferNotLen, fun s _ _ => by simp [exec, execWrbytes, hl]⟩
  | padding =>
    refine ⟨.next (u, snk, respond .ok (paddingBits u.valid.toNat) 0), ?_⟩
    rintro s rfl rfl
    rfl
  | flush =>
    refine ⟨andThen (flushBits u snk) fun r => .next (r.unit, r.sink, respondErr r.status r.n 0 r.err), ?_⟩
    rintro s rfl rfl
    simp [exec, execFlush, andThen_assoc]

/-! ### A unit's turn -/

@[simp] theorem waitOrDone_next (waiting t : State) : waitOrDone waiting (.next t) = .next t := rfl

@[simp] theorem waitOrDone_refused (waiting : State) (r : Refusal) : waitOrDone waiting (.refused r) = .refused r := rfl

@[simp] theorem waitOrDone_fault (waiting : State) (f : Fault) : waitOrDone waiting (.fault f) = .next waiting := by
  cases f <;> rfl

/-- A step takes the first turn off the agenda (10_state.md R46). -/
theorem step_of_agenda {s : State} {t : Turn} {ts : List Turn} (h : s.agenda = t :: ts) :
    step s = takeTurn t { s with agenda := ts } := by
  simp [step, nextTurn, h]

@[simp] theorem State.port_with_agenda (s : State) (p : PortId) (ts : List Turn) :
    ({ s with agenda := ts } : State).port p = s.port p := by cases p <;> rfl

@[simp] theorem State.setPort_with_agenda (s : State) (p : PortId) (port : Port) (ts : List Turn) :
    ({ s with agenda := ts } : State).setPort p port = { s.setPort p port with agenda := ts } := by cases p <;> rfl

/-- A unit that takes up a command runs it with the command accepted (10_state.md R35). -/
theorem serve_of_accept {s : State} {p : PortId} {c : Command} {port : Port}
    (h : (s.port p).accept = some (c, port)) : serve p s = runCommand p c (s.setPort p port) := by
  simp [serve, h]

/-- A step in which a unit takes up a command runs it with the command accepted and the turn used up (10_state.md R35,
R46). -/
theorem step_of_accept {s : State} {p : PortId} {ts : List Turn} {c : Command} {port : Port}
    (hturn : s.agenda = .serve p :: ts) (haccept : (s.port p).accept = some (c, port)) :
    step s = runCommand p c { s.setPort p port with agenda := ts } :=
  calc step s = serve p { s with agenda := ts } := step_of_agenda hturn
    _ = runCommand p c (({ s with agenda := ts } : State).setPort p port) := serve_of_accept (by simpa using haccept)
    _ = runCommand p c { s.setPort p port with agenda := ts } := by rw [State.setPort_with_agenda]

/-- A command that decodes is executed, and a fault of it makes the unit wait (30_encoding.md R77, 60_exceptions.md
R219). -/
theorem runCommand_of_decode {p : PortId} {c : Command} {i : Instr} (h : decode p c = .ok i) (s : State) :
    runCommand p c s = waitOrDone s (exec i s) := by
  simp [runCommand, h]

/-! ### The obligations of 00_scope.md -/

/-- Settles O41: a completed Reader command is `State.endRead`, which writes the Reader's side alone. -/
theorem readerCommandFrame : Obligations.ReaderCommandFrame := by
  intro s t i hi h
  obtain ⟨u, src, r, rfl, horder, hlog⟩ := exec_reader_eq_next hi h
  exact ⟨rfl, rfl, rfl, rfl, rfl, rfl, horder, ⟨r, rfl⟩, hlog⟩

/-- Settles O42: a completed Writer command is `State.endWrite`, which writes the Writer's side alone. -/
theorem writerCommandFrame : Obligations.WriterCommandFrame := by
  intro s t i hi h
  obtain ⟨u, snk, r, rfl, horder, hlog⟩ := exec_writer_eq_next hi h
  exact ⟨rfl, rfl, rfl, rfl, rfl, rfl, horder, ⟨r, rfl⟩, hlog⟩

/-- Settles O60: both states go on from one outcome of the unit's own side, and end with one response on equal ports. -/
theorem unitsLearnNothingOfEachOther : Obligations.UnitsLearnNothingOfEachOther := by
  intro s s' t i h
  constructor
  · intro hi hunit hsource hport
    obtain ⟨o, ho⟩ := exec_reader_local hi s.reader s.source
    obtain ⟨⟨u, src, r⟩, rfl, ht⟩ := andThen_eq_next.mp ((ho s rfl rfl).symm.trans h)
    cases ht
    exact ⟨_, ho s' hunit hsource, rfl, rfl, by simp [hport]⟩
  · intro hi hunit hsink hport
    obtain ⟨o, ho⟩ := exec_writer_local hi s.writer s.sink
    obtain ⟨⟨u, snk, r⟩, rfl, ht⟩ := andThen_eq_next.mp ((ho s rfl rfl).symm.trans h)
    cases ht
    exact ⟨_, ho s' hunit hsink, rfl, rfl, by simp [hport]⟩

/-- Settles O47: such a step is `waitOrDone` of `exec`, read off for each of the three outcomes. -/
theorem stepRunsTheDecodedCommand : Obligations.StepRunsTheDecodedCommand := by
  intro s p ts c port i hturn haccept hdecode s'
  have hstep : step s = waitOrDone s' (exec i s') :=
    (step_of_accept hturn haccept).trans (runCommand_of_decode hdecode s')
  refine ⟨fun t h => ?_, fun r h => ?_, fun f h => ?_⟩
  · rw [hstep, h, waitOrDone_next]
  · rw [hstep, h, waitOrDone_refused]
  · rw [hstep, h, waitOrDone_fault]

/-- Settles O54: reset gives the two units by definition, and meets the invariants because no count is above 0, no request
is answered and no response given. -/
theorem resetState : Obligations.ResetState := by
  refine ⟨rfl, rfl, rfl, rfl, rfl, rfl, fun o o' => ⟨rfl, rfl, ?below64, ?traffic, ?responses⟩⟩
  case below64 => exact Nat.zero_le 63
  case traffic => exact ⟨List.forall_mem_nil _, List.forall_mem_nil _⟩
  case responses => exact ⟨List.forall_mem_nil _, List.forall_mem_nil _⟩

end Sys2Proof.Machine
end

section
/-!
SUPPORT. Bit strings with their length, the outcomes of one bit command by name, and what each of them does to the stream of
bits that passes a unit (10_state.md R47, R48).
-/

namespace Sys2Proof.Machine

/-! ### Bit strings -/

/-- A bit string: its value and its length (00_scope.md R13). -/
@[ext] structure Bits where
  val : Nat
  len : Nat

/-- `x ++_b y`, with the length kept (00_scope.md R13). -/
def Bits.append (x y : Bits) : Bits := ⟨concatBits x.val y.len y.val, x.len + y.len⟩

/-- The bit string of no bits. -/
def Bits.nil : Bits := ⟨0, 0⟩

@[simp] theorem Bits.append_val (x y : Bits) : (x.append y).val = concatBits x.val y.len y.val := rfl
@[simp] theorem Bits.append_len (x y : Bits) : (x.append y).len = x.len + y.len := rfl

@[simp] theorem Bits.append_nil (x : Bits) : x.append .nil = x := by
  ext <;> simp [append, nil, concatBits]

@[simp] theorem Bits.nil_append (x : Bits) : Bits.nil.append x = x := by
  ext <;> simp [append, nil, concatBits]

@[simp] theorem Bits.mk_zero_zero : (⟨0, 0⟩ : Bits) = .nil := rfl

theorem Bits.append_assoc (x y z : Bits) : (x.append y).append z = x.append (y.append z) := by
  ext
  · simp only [append, concatBits, pow_add]
    ring
  · exact Nat.add_assoc _ _ _

/-- A bit string is its first `n` bits followed by the rest. -/
theorem Bits.split (x : Bits) {n : Nat} (h : n ≤ x.len) :
    x = Bits.append ⟨top x.val x.len n, n⟩ ⟨low x.val (x.len - n), x.len - n⟩ := by
  ext
  · exact (top_concat_low _ _ _).symm
  · exact (Nat.add_sub_cancel' h).symm

/-- The value of the bit string fits its length (00_scope.md R13). -/
def Bits.Fits (x : Bits) : Prop := x.val < 2 ^ x.len

theorem Bits.nil_fits : Bits.nil.Fits := Nat.one_pos

theorem Bits.Fits.append {x y : Bits} (hx : x.Fits) (hy : y.Fits) : (x.append y).Fits := concatBits_lt hx hy

/-- What stands before a bit string that fits is got back by a division. -/
theorem Bits.append_val_div (x : Bits) {y : Bits} (h : y.Fits) : (x.append y).val / 2 ^ y.len = x.val := by
  rw [append_val, concatBits, Nat.mul_comm, Nat.mul_add_div (Nat.two_pow_pos _), Nat.div_eq_of_lt h, Nat.add_zero]

/-- The bits the Reader has buffered (10_state.md R24). -/
def ReaderUnit.bits (u : ReaderUnit) : Bits := ⟨readerContent u, u.valid.toNat⟩

/-- The bits the Writer has buffered (10_state.md R24). -/
def WriterUnit.bits (u : WriterUnit) : Bits := ⟨writerContent u, u.valid.toNat⟩

/-- The bits of some bytes of a source or sink, as they stand in a register (20_memory.md R55, R56). -/
def streamBits (o : BitOrder) (bytes : List Byte) : Bits := ⟨freshBits o bytes, 8 * bytes.length⟩

/-- The bits of some bytes of a host's buffer (42_byteadapter.md R153, R161). -/
def bufferBits (bytes : List Byte) : Bits := ⟨packBytes bytes, 8 * bytes.length⟩

@[simp] theorem streamBits_nil (o : BitOrder) : streamBits o [] = .nil := rfl

theorem streamBits_append (o : BitOrder) (as bs : List Byte) :
    streamBits o (as ++ bs) = (streamBits o as).append (streamBits o bs) := by
  ext
  · exact freshBits_append o as bs
  · simp [streamBits, Nat.mul_add]

@[simp] theorem bufferBits_nil : bufferBits [] = .nil := rfl

theorem bufferBits_append (as bs : List Byte) : bufferBits (as ++ bs) = (bufferBits as).append (bufferBits bs) := by
  ext
  · exact packBytes_append as bs
  · simp [bufferBits, Nat.mul_add]

/-- Unpacking a bit string of `8m` bits stores just those bits (42_byteadapter.md R153). -/
theorem bufferBits_unpackBytes {m x : Nat} (h : x < 2 ^ (8 * m)) : bufferBits (unpackBytes m x) = ⟨x, 8 * m⟩ := by
  ext
  · exact (packBytes_unpackBytes m x).trans (Nat.mod_eq_of_lt h)
  · simp [bufferBits]

/-- The byte transform is its own inverse (43_bitordertable.md R173). -/
theorem xform_xform (o : BitOrder) (b : Byte) : xform o (xform o b) = b := by
  cases o
  · rfl
  · exact BitVec.reverse_reverse_eq

/-- Loading emitted bytes under the same order gives the emitted bits back (43_bitordertable.md R173). -/
theorem freshBits_emittedBytes (o : BitOrder) (m x : Nat) : freshBits o (emittedBytes o m x) = x % 2 ^ (8 * m) := by
  have hid : xform o ∘ xform o = id := funext (xform_xform o)
  rw [freshBits, emittedBytes, List.map_map, hid, List.map_id, packBytes_unpackBytes]

/-- The bytes of an emit carry just the bits that were emitted (20_memory.md R56). -/
theorem streamBits_emittedBytes (o : BitOrder) {m x : Nat} (h : x < 2 ^ (8 * m)) :
    streamBits o (emittedBytes o m x) = ⟨x, 8 * m⟩ := by
  ext
  · exact (freshBits_emittedBytes o m x).trans (Nat.mod_eq_of_lt h)
  · simp [streamBits]

theorem streamBits_fits (o : BitOrder) (bytes : List Byte) : (streamBits o bytes).Fits := freshBits_lt o bytes

theorem ReaderUnit.bits_fits (u : ReaderUnit) : u.bits.Fits := readerContent_lt u

/-! ### Contents and records -/

/-- The low bits of a content are the content at a smaller count. -/
theorem low_content (reg : Word) {n valid : Nat} (h : n ≤ valid) : low (content reg valid) n = content reg n :=
  Nat.mod_mod_of_dvd _ (Nat.pow_dvd_pow 2 h)

/-- The content of a register that was given a value. -/
theorem content_zext64 (x : Nat) {n : Nat} (h : n ≤ 64) : content (zext64 x) n = low x n := by
  simp only [content, zext64, low, BitVec.toNat_ofNat]
  exact Nat.mod_mod_of_dvd _ (Nat.pow_dvd_pow 2 h)

theorem zext64_toNat {n : Nat} (h : n < 2 ^ 64) : (zext64 n).toNat = n := by
  rw [zext64, BitVec.toNat_ofNat, Nat.mod_eq_of_lt h]

theorem ofNat7_toNat {n : Nat} (h : n ≤ 64) : (BitVec.ofNat 7 n).toNat = n := by
  rw [BitVec.toNat_ofNat]
  omega

theorem ofNat6_toNat {n : Nat} (h : n ≤ 63) : (BitVec.ofNat 6 n).toNat = n := by
  rw [BitVec.toNat_ofNat]
  omega

/-- The bits of a Reader whose register was given a value. -/
theorem ReaderUnit.bits_zext64 (o : BitOrder) (x : Nat) {n : Nat} (h : n ≤ 64) :
    ReaderUnit.bits ⟨o, zext64 x, BitVec.ofNat 7 n⟩ = ⟨low x n, n⟩ := by
  rw [ReaderUnit.bits, readerContent, ofNat7_toNat h, content_zext64 x h]

/-- The bits of a Writer whose register was given a value. -/
theorem WriterUnit.bits_zext64 (o : BitOrder) (x : Nat) {n : Nat} (h : n ≤ 63) :
    WriterUnit.bits ⟨o, zext64 x, BitVec.ofNat 6 n⟩ = ⟨low x n, n⟩ := by
  rw [WriterUnit.bits, writerContent, ofNat6_toNat h, content_zext64 x (Nat.le_succ_of_le h)]

theorem deliveredBytes_append (as bs : List SourceReply) :
    deliveredBytes (as ++ bs) = deliveredBytes as ++ deliveredBytes bs := by
  induction as with
  | nil => rfl
  | cons a as ih => cases a <;> simp [deliveredBytes, ih]

theorem acceptedBytes_append (as bs : List SinkWrite) :
    acceptedBytes (as ++ bs) = acceptedBytes as ++ acceptedBytes bs := by
  induction as with
  | nil => rfl
  | cons a as ih =>
    obtain ⟨bytes, reply⟩ := a
    cases reply <;> simp [acceptedBytes, ih]

/-! ### The outcomes of a bit read -/

/-- A bit read with a count out of range is rejected (40_bitreader.md R102). -/
theorem readBits_rejected {count : Nat} (u : ReaderUnit) (src : Source) (hcount : 64 < count) :
    readBits count u src = .next ⟨.countRangeError, 0, 0, ErrToken.zero, u, src⟩ := by
  simp [readBits, hcount]

/-- A bit read that the register can serve makes no request (40_bitreader.md R103). -/
theorem readBits_buffered {count : Nat} {u : ReaderUnit} (src : Source) (hcount : count ≤ 64)
    (hvalid : count ≤ u.valid.toNat) : readBits count u src = .next (readBuffered count u src) := by
  simp [readBits, Nat.not_lt.mpr hcount, hvalid]

/-- A bit read that the register cannot serve makes one request (40_bitreader.md R105). -/
theorem readBits_refill {count : Nat} {u : ReaderUnit} (src : Source) (hcount : count ≤ 64)
    (hvalid : u.valid.toNat < count) :
    readBits count u src = andThen (srcRead src) fun answer => .next (refill count u answer) := by
  simp [readBits, Nat.not_lt.mpr hcount, Nat.not_le.mpr hvalid]

/-- The outcomes of a bit read (40_bitreader.md R102 to R109). -/
inductive ReadOutcome (count : Nat) (u : ReaderUnit) (src : Source) : ReadResult → Prop
  | rejected (hcount : 64 < count) : ReadOutcome count u src ⟨.countRangeError, 0, 0, ErrToken.zero, u, src⟩
  | buffered (hcount : count ≤ 64) (hvalid : count ≤ u.valid.toNat) :
      ReadOutcome count u src (readBuffered count u src)
  | failed (hcount : count ≤ 64) (hvalid : u.valid.toNat < count) (e : ErrToken)
      (hanswer : src.answer = some (.error e)) :
      ReadOutcome count u src ⟨.transportError, 0, 0, e, u, src.answered (.error e)⟩
  | short (hcount : count ≤ 64) (bytes : List Byte) (hanswer : src.answer = some (.data bytes))
      (hshort : u.valid.toNat + 8 * bytes.length < count) :
      ReadOutcome count u src
        ⟨.endOfStream, u.valid.toNat + 8 * bytes.length,
          concatBits (readerContent u) (8 * bytes.length) (freshBits u.order bytes), ErrToken.zero,
          ⟨u.order, zext64 (freshBits u.order bytes), 0#7⟩, src.answered (.data bytes)⟩
  | refilled (hcount : count ≤ 64) (hvalid : u.valid.toNat < count) (bytes : List Byte)
      (hanswer : src.answer = some (.data bytes)) (hlen : bytes.length ≤ 8)
      (henough : count ≤ u.valid.toNat + 8 * bytes.length) :
      ReadOutcome count u src
        ⟨.ok, count,
          concatBits (readerContent u) (count - u.valid.toNat)
            (top (freshBits u.order bytes) (8 * bytes.length) (count - u.valid.toNat)),
          ErrToken.zero,
          ⟨u.order, zext64 (freshBits u.order bytes),
            BitVec.ofNat 7 (8 * bytes.length - (count - u.valid.toNat))⟩, src.answered (.data bytes)⟩

/-- A completed bit read has one of the outcomes. -/
theorem readBits_outcome {count : Nat} {u : ReaderUnit} {src : Source} {r : ReadResult}
    (h : readBits count u src = .next r) : ReadOutcome count u src r := by
  obtain ⟨hc, rfl⟩ | ⟨hc, hv, rfl⟩ | ⟨hc, hv, reply, hfit, hread, rfl⟩ := readBits_eq_next h
  · exact .rejected hc
  · exact .buffered hc hv
  · obtain ⟨-, -, ⟨bytes, rfl, ha⟩ | ⟨e, rfl, ha⟩⟩ := srcRead_eq_next hread
    · have hlen : bytes.length ≤ 8 := by simpa [SourceReply.fits] using hfit
      by_cases hshort : u.valid.toNat + 8 * bytes.length < count
      · have : count - u.valid.toNat > 8 * bytes.length := by omega
        simpa [refill, this] using ReadOutcome.short hc bytes ha hshort
      · have : ¬ count - u.valid.toNat > 8 * bytes.length := by omega
        simpa [refill, this] using ReadOutcome.refilled hc hv bytes ha hlen (Nat.le_of_not_lt hshort)
    · exact .failed hc hv e ha

/-- A bit read that the source answers with bytes is OK when they suffice, and short otherwise (40_bitreader.md R106,
R107). -/
theorem readBits_data {count : Nat} {u : ReaderUnit} {src : Source} {bytes : List Byte} (hcount : count ≤ 64)
    (hvalid : u.valid.toNat < count) (hanswer : src.answer = some (.data bytes)) (hlen : bytes.length ≤ 8) :
    ∃ q, readBits count u src = .next q ∧ q.source = src.answered (.data bytes) ∧
      ((q.status = .ok ∧ q.unit.valid.toNat + count = u.valid.toNat + 8 * bytes.length) ∨
        (q.status = .endOfStream ∧ u.valid.toNat + 8 * bytes.length < count)) := by
  have hq := readBits_refill src hcount hvalid
  rw [srcRead_data hanswer hlen, andThen_next] at hq
  obtain ⟨q, hq⟩ : ∃ q, readBits count u src = .next q := ⟨_, hq⟩
  refine ⟨q, hq, ?_⟩
  cases readBits_outcome hq with
  | rejected | buffered => omega
  | failed _ _ e he => simp [hanswer] at he
  | short _ got hgot hshort =>
    obtain rfl : bytes = got := by simpa [hanswer] using hgot
    exact ⟨rfl, .inr ⟨rfl, hshort⟩⟩
  | refilled _ _ got hgot =>
    obtain rfl : bytes = got := by simpa [hanswer] using hgot
    refine ⟨rfl, .inl ⟨rfl, ?_⟩⟩
    rw [ofNat7_toNat (by omega)]
    omega

/-- A read from the register leaves the bits not handed out (40_bitreader.md R103). -/
theorem readBuffered_valid {count : Nat} {u : ReaderUnit} (src : Source) (hvalid : count ≤ u.valid.toNat) :
    (readBuffered count u src).unit.valid.toNat = u.valid.toNat - count := by
  have := u.valid.isLt
  simp only [readBuffered, BitVec.toNat_ofNat]
  omega

/-- The bits buffered before a read from the register are, in order, those it hands out and those it leaves. -/
theorem readBuffered_conserves {count : Nat} {u : ReaderUnit} (src : Source) (hvalid : count ≤ u.valid.toNat) :
    u.bits = Bits.append ⟨(readBuffered count u src).value, count⟩ (readBuffered count u src).unit.bits := by
  have hrest : (readBuffered count u src).unit.bits = ⟨low u.bits.val (u.bits.len - count), u.bits.len - count⟩ := by
    ext
    · rw [ReaderUnit.bits, readerContent, readBuffered_valid src hvalid]
      exact (low_content _ (Nat.sub_le _ _)).symm
    · exact readBuffered_valid src hvalid
  rw [hrest]
  exact u.bits.split hvalid

/-- A read from the register and a refill: the bits buffered and the fresh ones are, in order, those of the read and the
rest of the fresh ones (40_bitreader.md R106). -/
theorem refilled_conserves {count : Nat} {u : ReaderUnit} {fresh : Bits} (hvalid : u.valid.toNat ≤ count)
    (henough : count - u.valid.toNat ≤ fresh.len) :
    let needed := count - u.valid.toNat
    u.bits.append fresh = Bits.append ⟨concatBits (readerContent u) needed (top fresh.val fresh.len needed), count⟩
      ⟨low fresh.val (fresh.len - needed), fresh.len - needed⟩ := by
  intro needed
  have hread : u.bits.append ⟨top fresh.val fresh.len needed, needed⟩ =
      ⟨concatBits (readerContent u) needed (top fresh.val fresh.len needed), count⟩ := by
    ext
    · rfl
    · exact Nat.add_sub_cancel' hvalid
  rw [← hread, Bits.append_assoc, ← fresh.split henough]

/-- The bits buffered before a bit read and those the source delivered to it are, in order, those it hands out and those
buffered after (10_state.md R48). -/
theorem readBits_conserves {count : Nat} {u : ReaderUnit} {src : Source} {r : ReadResult}
    (h : readBits count u src = .next r) :
    ∃ replies, r.source.log = src.log ++ replies ∧
      u.bits.append (streamBits u.order (deliveredBytes replies)) = Bits.append ⟨r.value, r.n⟩ r.unit.bits := by
  have hdelivered (bytes : List Byte) : deliveredBytes [.data bytes] = bytes := List.append_nil bytes
  cases readBits_outcome h with
  | rejected => exact ⟨[], by simp, by simp [deliveredBytes]⟩
  | failed _ _ e => exact ⟨[.error e], by simp, by simp [deliveredBytes]⟩
  | buffered _ hvalid =>
    refine ⟨[], by simp [readBuffered], ?_⟩
    rw [deliveredBytes, streamBits_nil, Bits.append_nil]
    exact readBuffered_conserves src hvalid
  | short _ bytes =>
    have hempty : low (freshBits u.order bytes) 0 = 0 := Nat.mod_one _
    refine ⟨[.data bytes], by simp, ?_⟩
    rw [hdelivered, ReaderUnit.bits_zext64 _ _ (Nat.zero_le 64), hempty, Bits.mk_zero_zero, Bits.append_nil]
    rfl
  | refilled hcount hvalid bytes _ hlen henough =>
    refine ⟨[.data bytes], by simp, ?_⟩
    rw [hdelivered, ReaderUnit.bits_zext64 _ _ (by omega)]
    exact refilled_conserves (fresh := streamBits u.order bytes) hvalid.le (Nat.sub_le_iff_le_add'.mpr henough)

/-- A bit read hands out at most 64 bits, and its value fits them (30_encoding.md R80). -/
theorem readBits_value_fits {count : Nat} {u : ReaderUnit} {src : Source} {r : ReadResult}
    (h : readBits count u src = .next r) : r.n ≤ 64 ∧ r.value < 2 ^ r.n := by
  cases readBits_outcome h with
  | rejected => simp
  | buffered hcount hvalid => exact ⟨hcount, top_lt hvalid (readerContent_lt u)⟩
  | failed => simp
  | short hcount bytes _ hshort =>
    exact ⟨(hshort.trans_le hcount).le, concatBits_lt (readerContent_lt u) (freshBits_lt u.order bytes)⟩
  | refilled hcount hvalid bytes _ _ henough =>
    have htop := top_lt (n := count - u.valid.toNat) (by omega) (freshBits_lt u.order bytes)
    have := concatBits_lt (readerContent_lt u) htop
    exact ⟨hcount, by rwa [Nat.add_sub_cancel' (Nat.le_of_lt hvalid)] at this⟩

/-! ### The outcomes of a bit write -/

/-- A bit write with a count out of range is rejected (41_bitwriter.md R121). -/
theorem writeBits_rejected {count : Nat} (value : Nat) (u : WriterUnit) (snk : Sink) (hcount : 64 < count) :
    writeBits count value u snk = .next ⟨.countRangeError, 0, ErrToken.zero, u, snk⟩ := by
  simp [writeBits, hcount]

/-- A bit write with room for its bits makes no write (41_bitwriter.md R122). -/
theorem writeBits_buffered {count : Nat} (value : Nat) {u : WriterUnit} (snk : Sink) (hroom : count < writerRoom u) :
    writeBits count value u snk = .next ⟨.ok, count, ErrToken.zero, appended count (low value count) u, snk⟩ := by
  have hcount : ¬ 64 < count := Nat.not_lt.mpr (hroom.le.trans (Nat.sub_le _ _))
  simp [writeBits, hcount, hroom]

/-- A bit write that fills the register makes one write (41_bitwriter.md R124). -/
theorem writeBits_fill {count : Nat} (value : Nat) {u : WriterUnit} (snk : Sink) (hcount : count ≤ 64)
    (hroom : writerRoom u ≤ count) :
    writeBits count value u snk =
      andThen (snkWrite (emittedBytes u.order 8 (fullWord count (low value count) u)) snk) fun answer =>
        .next (settleWrite u (refilled count (low value count) u) count answer) := by
  simp [writeBits, Nat.not_lt.mpr hcount, Nat.not_lt.mpr hroom]

/-- The outcomes of a bit write (41_bitwriter.md R121 to R126). -/
inductive WriteOutcome (count value : Nat) (u : WriterUnit) (snk : Sink) : WriteResult → Prop
  | rejected (hcount : 64 < count) : WriteOutcome count value u snk ⟨.countRangeError, 0, ErrToken.zero, u, snk⟩
  | buffered (hroom : count < writerRoom u) :
      WriteOutcome count value u snk ⟨.ok, count, ErrToken.zero, appended count (low value count) u, snk⟩
  | emitted (hcount : count ≤ 64) (hroom : writerRoom u ≤ count) (bytes : List Byte)
      (hbytes : bytes = emittedBytes u.order 8 (fullWord count (low value count) u))
      (hanswer : snk.answer 8 = some .ok) :
      WriteOutcome count value u snk
        ⟨.ok, count, ErrToken.zero, refilled count (low value count) u, snk.answered bytes .ok⟩
  | failed (hcount : count ≤ 64) (hroom : writerRoom u ≤ count) (bytes : List Byte)
      (hbytes : bytes = emittedBytes u.order 8 (fullWord count (low value count) u)) (acc : Nat) (e : ErrToken)
      (hacc : acc ≤ 8) (hanswer : snk.answer 8 = some (.error acc e)) :
      WriteOutcome count value u snk ⟨.transportError, acc, e, u, snk.answered bytes (.error acc e)⟩

/-- A completed bit write has one of the outcomes. -/
theorem writeBits_outcome {count value : Nat} {u : WriterUnit} {snk : Sink} {r : WriteResult}
    (h : writeBits count value u snk = .next r) : WriteOutcome count value u snk r := by
  obtain ⟨hc, rfl⟩ | ⟨-, hr, rfl⟩ | ⟨hc, hr, reply, hwrite, rfl⟩ := writeBits_eq_next h
  · exact .rejected hc
  · exact .buffered hr
  · obtain ⟨-, ⟨rfl, ha⟩ | ⟨acc, e, rfl, hacc, ha⟩⟩ := snkWrite_eq_next hwrite
    · exact .emitted hc hr _ rfl (by simpa using ha)
    · exact .failed hc hr _ rfl acc e (by simpa using hacc) (by simpa using ha)

/-- The room of the Writer and its count make up the register (41_bitwriter.md R123). -/
theorem writerRoom_add_valid (u : WriterUnit) : u.valid.toNat + writerRoom u = 64 :=
  Nat.add_sub_cancel' (Nat.le_of_lt u.valid.isLt)

/-- A bit write without a fill puts its bits behind those buffered (41_bitwriter.md R122). -/
theorem appended_bits {count x : Nat} {u : WriterUnit} (hx : x < 2 ^ count) (hroom : count < writerRoom u) :
    (appended count x u).bits = u.bits.append ⟨x, count⟩ := by
  have hsum := writerRoom_add_valid u
  have hfit := concatBits_lt (writerContent_lt u) hx
  rw [appended, WriterUnit.bits_zext64 _ _ (by omega), low, Nat.mod_eq_of_lt hfit]
  rfl

/-- A bit write with a fill: the bits buffered and those of the value are, in order, the full register and the rest
(41_bitwriter.md R124, R125). -/
theorem refilled_bits {count x : Nat} {u : WriterUnit} (hcount : count ≤ 64) (hroom : writerRoom u ≤ count) :
    u.bits.append ⟨x, count⟩ = Bits.append ⟨fullWord count x u, 64⟩ (refilled count x u).bits := by
  have hsum := writerRoom_add_valid u
  have hvalid := u.valid.isLt
  have hrest : (refilled count x u).bits = ⟨low x (count - writerRoom u), count - writerRoom u⟩ := by
    rw [refilled, WriterUnit.bits_zext64 _ _ (by omega), low, low, Nat.mod_mod]
  have hfull : u.bits.append ⟨top x count (writerRoom u), writerRoom u⟩ = ⟨fullWord count x u, 64⟩ := by
    ext
    · rfl
    · exact hsum
  rw [hrest, ← hfull, Bits.append_assoc, ← Bits.split ⟨x, count⟩ hroom]

/-- The word of the fill path fits the register (41_bitwriter.md R124). -/
theorem fullWord_lt {count x : Nat} {u : WriterUnit} (hx : x < 2 ^ count) (hroom : writerRoom u ≤ count) :
    fullWord count x u < 2 ^ 64 := by
  have := concatBits_lt (writerContent_lt u) (top_lt hroom hx)
  rwa [writerRoom_add_valid] at this

/-- An OK bit write puts its bits behind those buffered before: they are, in order, those the sink accepted and those
buffered after (10_state.md R47). -/
theorem writeBits_conserves {count value : Nat} {u : WriterUnit} {snk : Sink} {r : WriteResult}
    (h : writeBits count value u snk = .next r) (hok : r.status = .ok) :
    r.n = count ∧ ∃ writes, r.sink.log = snk.log ++ writes ∧
      u.bits.append ⟨low value count, count⟩ = (streamBits u.order (acceptedBytes writes)).append r.unit.bits := by
  have hx : low value count < 2 ^ count := Nat.mod_lt _ (Nat.two_pow_pos _)
  cases writeBits_outcome h with
  | rejected | failed => cases hok
  | buffered hroom => exact ⟨rfl, [], by simp, by simp [acceptedBytes, appended_bits hx hroom]⟩
  | emitted hcount hroom bytes hbytes =>
    refine ⟨rfl, [⟨bytes, .ok⟩], by simp, ?_⟩
    rw [show acceptedBytes [⟨bytes, .ok⟩] = bytes from List.append_nil bytes, hbytes,
      streamBits_emittedBytes _ (fullWord_lt hx hroom)]
    exact refilled_bits hcount hroom

/-- A bit write that is not OK leaves the unit as it was, and the sink has accepted nothing (10_state.md R47). -/
theorem writeBits_not_ok {count value : Nat} {u : WriterUnit} {snk : Sink} {r : WriteResult}
    (h : writeBits count value u snk = .next r) (hok : r.status ≠ .ok) :
    r.unit = u ∧ ∃ writes, r.sink.log = snk.log ++ writes ∧ acceptedBytes writes = [] := by
  cases writeBits_outcome h with
  | rejected => exact ⟨rfl, [], by simp, rfl⟩
  | failed _ _ bytes _ acc e => exact ⟨rfl, [⟨bytes, .error acc e⟩], by simp, rfl⟩
  | buffered | emitted => exact absurd rfl hok

/-! ### Commands from what they are made of -/

/-- A completed bit read completes RDBITS. -/
theorem exec_rdbits_of_next {s : State} {count : BitVec 8} {d : Bool} {q : ReadResult}
    (h : readBits count.toNat s.reader s.source = .next q) :
    exec (.rdbits count d) s =
      .next (s.endRead q.unit q.source (respondErr q.status q.n (if d then 0 else q.value) q.err)) := by
  simp [exec, execRdbits, h]

/-- A completed loop of reads completes RDBYTES. -/
theorem exec_rdbytes_of_next {s : State} {len : BitVec 32} {buf : List Byte} {q : FillResult}
    (hlen : buf.length = len.toNat) (h : readChunks (chunkSizes len.toNat) 0 buf s.reader s.source = .next q) :
    exec (.rdbytes len buf) s = .next (s.endRead q.unit q.source (respondBuf q.status q.n q.err q.buf)) := by
  simp [exec, execRdbytes, hlen, h]

/-- A completed bit write completes WRBITS. -/
theorem exec_wrbits_of_next {s : State} {count : BitVec 8} {value : Word} {q : WriteResult}
    (h : writeBits count.toNat value.toNat s.writer s.sink = .next q) :
    exec (.wrbits count value) s = .next (s.endWrite q.unit q.sink (respondErr q.status q.n 0 q.err)) := by
  simp [exec, execWrbits, h]

/-- A completed loop of writes completes WRBYTES. -/
theorem exec_wrbytes_of_next {s : State} {len : BitVec 32} {buf : List Byte} {q : WriteResult}
    (hlen : buf.length = len.toNat) (h : writeChunks (chunkSizes len.toNat) 0 buf s.writer s.sink = .next q) :
    exec (.wrbytes len buf) s = .next (s.endWrite q.unit q.sink (respondErr q.status q.n 0 q.err)) := by
  simp [exec, execWrbytes, hlen, h]

/-- A completed flush completes FLUSH. -/
theorem exec_flush_of_next {s : State} {q : WriteResult} (h : flushBits s.writer s.sink = .next q) :
    exec .flush s = .next (s.endWrite q.unit q.sink (respondErr q.status q.n 0 q.err)) := by
  simp [exec, execFlush, h]

end Sys2Proof.Machine
end

section
/-!
SUPPORT. The byte loops and the stream (42_byteadapter.md R151 to R165), and the obligations on the streams of the two units
(10_state.md R47, R48).
-/

namespace Sys2Proof.Machine

/-! ### What a loop of reads does to the stream -/

/-- An OK bit read hands out the bits it was asked for (40_bitreader.md R103, R106). -/
theorem readBits_ok {count : Nat} {u : ReaderUnit} {src : Source} {r : ReadResult}
    (h : readBits count u src = .next r) (hok : r.status = .ok) : r.n = count := by
  cases readBits_outcome h with
  | rejected | failed | short => cases hok
  | buffered | refilled => rfl

/-- A short bit read hands out fewer bits and leaves none (40_bitreader.md R107). -/
theorem readBits_short {count : Nat} {u : ReaderUnit} {src : Source} {r : ReadResult}
    (h : readBits count u src = .next r) (heos : r.status = .endOfStream) : r.n < count ∧ r.unit.valid = 0#7 := by
  cases readBits_outcome h with
  | rejected | failed | buffered | refilled => cases heos
  | short _ _ _ hshort => exact ⟨hshort, rfl⟩

/-- A failed bit read hands out nothing (40_bitreader.md R102, R109). -/
theorem readBits_failed {count : Nat} {u : ReaderUnit} {src : Source} {r : ReadResult}
    (h : readBits count u src = .next r) (hok : r.status ≠ .ok) (heos : r.status ≠ .endOfStream) :
    (⟨r.value, r.n⟩ : Bits) = .nil := by
  cases readBits_outcome h with
  | rejected | failed => rfl
  | buffered | refilled => exact absurd rfl hok
  | short => exact absurd rfl heos

/-- What a short read stores and what it loses are, in order, the bits it hands out (42_byteadapter.md R154). -/
theorem bufferBits_of_short {value n : Nat} (hfits : value < 2 ^ n) :
    (⟨value, n⟩ : Bits) =
      (bufferBits (unpackBytes (n / 8) (value / 2 ^ (n % 8)))).append ⟨low value (n % 8), n % 8⟩ := by
  have hwhole : n - 8 * (n / 8) = n % 8 := by omega
  have hle : 8 * (n / 8) ≤ n := Nat.mul_div_le n 8
  have htop := top_lt hle hfits
  have hsplit := Bits.split ⟨value, n⟩ hle
  simp only [top, hwhole] at htop hsplit
  rw [bufferBits_unpackBytes htop]
  exact hsplit

/-- The bits of the first `n` bytes of a buffer. -/
theorem bufferBits_take {bytes : List Byte} {n : Nat} (h : n ≤ bytes.length) :
    bufferBits (bytes.take n) = ⟨packBytes (bytes.take n), 8 * n⟩ := by
  rw [bufferBits, List.length_take, Nat.min_eq_left h]

/-- Lists that agree from a place on agree from every later one on. -/
theorem drop_eq_of_le {α : Type} {as bs : List α} {m n : Nat} (h : as.drop m = bs.drop m) (hmn : m ≤ n) :
    as.drop n = bs.drop n := by
  obtain ⟨k, rfl⟩ := Nat.exists_eq_add_of_le hmn
  simpa only [List.drop_drop] using congrArg (List.drop k) h

/-- The buffer after a loop of reads: bytes were stored from `i` on, `n` is where they end, and from there the buffer is
as it was; with OK all chunks are stored, and with EndOfStream not all (42_byteadapter.md R153 to R155). -/
theorem readChunks_stored {cs : List Nat} {i : Nat} {buf : List Byte} {u : ReaderUnit} {src : Source} {r : FillResult}
    (h : readChunks cs i buf u src = .next r) (hbuf : i + cs.sum ≤ buf.length) :
    i ≤ r.n ∧ r.n ≤ i + cs.sum ∧ (r.status = .ok → r.n = i + cs.sum) ∧
      (r.status = .endOfStream → r.n < i + cs.sum) ∧ r.buf.length = buf.length ∧ r.buf.drop r.n = buf.drop r.n := by
  induction cs generalizing i buf u src with
  | nil =>
    cases h
    simp
  | cons c cs ih =>
    rw [List.sum_cons] at hbuf ⊢
    obtain ⟨q, hq, ⟨_, hr⟩ | ⟨heos, rfl⟩ | ⟨_, _, rfl⟩⟩ := readChunks_cons_eq_next h
    · have hlen : (storeAt buf i (unpackBytes c q.value)).length = buf.length :=
        storeAt_length (by rw [unpackBytes_length]; omega)
      have hdrop : (storeAt buf i (unpackBytes c q.value)).drop (i + c) = buf.drop (i + c) := by
        simpa using storeAt_drop (bs := unpackBytes c q.value) (show i ≤ buf.length by omega)
      obtain ⟨hge, hle, hok, hshort, hlen', hdrop'⟩ := ih hr (by omega)
      refine ⟨by omega, by omega, fun hs => ?_, fun hs => ?_, hlen'.trans hlen, ?_⟩
      · rw [hok hs, Nat.add_assoc]
      · rw [← Nat.add_assoc]
        exact hshort hs
      · rw [hdrop', drop_eq_of_le hdrop hge]
    · obtain ⟨hlt, -⟩ := readBits_short hq heos
      have hbytes : q.n / 8 < c := by omega
      refine ⟨by simp, by simp only; omega, nofun, fun _ => by simp only; omega, ?_, ?_⟩
      · exact storeAt_length (by rw [unpackBytes_length]; omega)
      · simpa using storeAt_drop (bs := unpackBytes (q.n / 8) (q.value / 2 ^ (q.n % 8)))
          (show i ≤ buf.length by omega)
    · exact ⟨Nat.le_refl _, Nat.le_add_right _ _, nofun, nofun, rfl, rfl⟩

/-- The bits buffered before a loop of reads and those the source delivered to it are, in order, the bytes it stored, the
bits it lost (at most 7, and only with EndOfStream), and those buffered after (10_state.md R48, 42_byteadapter.md R154). -/
theorem readChunks_conserves {cs : List Nat} {i : Nat} {buf : List Byte} {u : ReaderUnit} {src : Source} {r : FillResult}
    (h : readChunks cs i buf u src = .next r) (hbuf : i + cs.sum ≤ buf.length) :
    ∃ replies stored lost, r.source.log = src.log ++ replies ∧ r.buf.take r.n = buf.take i ++ stored ∧
      u.bits.append (streamBits u.order (deliveredBytes replies)) =
        ((bufferBits stored).append lost).append r.unit.bits ∧
      lost.len < 8 ∧ lost.Fits ∧ (r.status ≠ .endOfStream → lost = .nil) ∧
      (r.status = .endOfStream → r.unit.valid = 0#7) := by
  induction cs generalizing i buf u src with
  | nil =>
    cases h
    exact ⟨[], [], .nil, by simp, by simp, by simp [deliveredBytes], by decide, Bits.nil_fits, fun _ => rfl, nofun⟩
  | cons c cs ih =>
    rw [List.sum_cons] at hbuf
    have hi : i ≤ buf.length := by omega
    obtain ⟨q, hq, hcase⟩ := readChunks_cons_eq_next h
    obtain ⟨replies, hlog, hbits⟩ := readBits_conserves hq
    obtain ⟨-, hfits⟩ := readBits_value_fits hq
    obtain ⟨hok, hr⟩ | ⟨heos, rfl⟩ | ⟨hok, heos, rfl⟩ := hcase
    · have hn := readBits_ok hq hok
      have hlen : (storeAt buf i (unpackBytes c q.value)).length = buf.length :=
        storeAt_length (by rw [unpackBytes_length]; omega)
      obtain ⟨replies', stored, lost, hlog', htake, hbits', hrest⟩ := ih hr (by omega)
      have hchunk : (storeAt buf i (unpackBytes c q.value)).take (i + c) = buf.take i ++ unpackBytes c q.value := by
        simpa using storeAt_take_stored (bs := unpackBytes c q.value) hi
      refine ⟨replies ++ replies', unpackBytes c q.value ++ stored, lost, ?_, ?_, ?_, hrest⟩
      · rw [hlog', hlog, List.append_assoc]
      · rw [htake, hchunk, List.append_assoc]
      · rw [hn] at hbits hfits
        rw [readBits_order hq] at hbits'
        rw [deliveredBytes_append, streamBits_append, ← Bits.append_assoc, hbits, Bits.append_assoc, hbits',
          bufferBits_append, bufferBits_unpackBytes hfits]
        simp only [Bits.append_assoc]
    · obtain ⟨-, hvalid⟩ := readBits_short hq heos
      refine ⟨replies, unpackBytes (q.n / 8) (q.value / 2 ^ (q.n % 8)), ⟨low q.value (q.n % 8), q.n % 8⟩, hlog, ?_, ?_,
        Nat.mod_lt _ (by decide), Nat.mod_lt _ (Nat.two_pow_pos _), fun hne => absurd rfl hne, fun _ => hvalid⟩
      · simpa using storeAt_take_stored (bs := unpackBytes (q.n / 8) (q.value / 2 ^ (q.n % 8))) hi
      · rw [hbits, bufferBits_of_short hfits]
    · refine ⟨replies, [], .nil, hlog, by simp, ?_, by decide, Bits.nil_fits, fun _ => rfl, nofun⟩
      rw [hbits, readBits_failed hq hok heos]
      simp

/-! ### A loop of reads from a finite byte list -/

/-- A loop of reads goes on after an OK chunk (42_byteadapter.md R153). -/
theorem readChunks_cons_ok {c : Nat} {u : ReaderUnit} {src : Source} {q : ReadResult}
    (hq : readBits (8 * c) u src = .next q) (hok : q.status = .ok) (cs : List Nat) (i : Nat) (buf : List Byte) :
    readChunks (c :: cs) i buf u src = readChunks cs (i + c) (storeAt buf i (unpackBytes c q.value)) q.unit q.source := by
  simp [readChunks, hq, hok]

/-- A loop of reads stops at a short chunk (42_byteadapter.md R154). -/
theorem readChunks_cons_short {c : Nat} {u : ReaderUnit} {src : Source} {q : ReadResult}
    (hq : readBits (8 * c) u src = .next q) (heos : q.status = .endOfStream) (cs : List Nat) (i : Nat) (buf : List Byte) :
    readChunks (c :: cs) i buf u src = .next ⟨.endOfStream, i + q.n / 8, ErrToken.zero,
      storeAt buf i (unpackBytes (q.n / 8) (q.value / 2 ^ (q.n % 8))), q.unit, q.source⟩ := by
  simp [readChunks, hq, heos]

/-- A source that hands out a byte list delivers the next 8 bytes of it (10_state.md R42). -/
theorem Source.Streams.answer_eq {src : Source} {bytes : List Byte} (h : src.Streams bytes) :
    src.answer = some (.data (bytes.take 8)) := by
  simp [Source.answer, h.1, h.2]

/-- After a request the source hands out the rest of its byte list (20_memory.md R62). -/
theorem Source.Streams.answered {src : Source} {bytes : List Byte} (h : src.Streams bytes) (reply : SourceReply) :
    (src.answered reply).Streams (bytes.drop 8) := by
  simp [Source.Streams, Source.answered, h.1, h.2, SourceRest.afterRead]

/-- From a source that hands out a byte list a bit read is OK, or it is short and the list is used up. -/
theorem readBits_stream {count : Nat} (u : ReaderUnit) {src : Source} {bytes : List Byte} (hsrc : src.Streams bytes)
    (hcount : count ≤ 64) :
    ∃ q replies rest, readBits count u src = .next q ∧ q.source.Streams rest ∧ q.source.log = src.log ++ replies ∧
      deliveredBytes replies ++ rest = bytes ∧ (q.status = .ok ∨ (q.status = .endOfStream ∧ rest = [])) := by
  obtain hvalid | hvalid := Nat.lt_or_ge u.valid.toNat count
  · obtain ⟨q, hq, hsource, hstatus⟩ := readBits_data hcount hvalid hsrc.answer_eq (by simp)
    refine ⟨q, [.data (bytes.take 8)], bytes.drop 8, hq, hsource ▸ hsrc.answered _, by simp [hsource],
      by simp [deliveredBytes], ?_⟩
    obtain ⟨hok, -⟩ | ⟨heos, hshort⟩ := hstatus
    · exact .inl hok
    · rw [List.length_take] at hshort
      exact .inr ⟨heos, List.drop_of_length_le (by omega)⟩
  · exact ⟨_, [], bytes, readBits_buffered src hcount hvalid, hsrc, by simp [readBuffered], rfl, .inl rfl⟩

/-- From a source that hands out a byte list a loop of reads completes: OK, or short with the list used up. -/
theorem readChunks_stream {cs : List Nat} (hcs : ∀ c ∈ cs, c ≤ 8) (i : Nat) (buf : List Byte) (u : ReaderUnit)
    {src : Source} {bytes : List Byte} (hsrc : src.Streams bytes) :
    ∃ r replies rest, readChunks cs i buf u src = .next r ∧ r.source.log = src.log ++ replies ∧
      deliveredBytes replies ++ rest = bytes ∧ r.err = ErrToken.zero ∧
      (r.status = .ok ∨ (r.status = .endOfStream ∧ rest = [])) := by
  induction cs generalizing i buf u src bytes with
  | nil => exact ⟨_, [], bytes, rfl, by simp, rfl, rfl, .inl rfl⟩
  | cons c cs ih =>
    obtain ⟨hc, hcs⟩ := List.forall_mem_cons.mp hcs
    obtain ⟨q, replies, rest, hq, hrest, hlog, hsplit, hok | ⟨heos, hnil⟩⟩ :=
      readBits_stream u hsrc (show 8 * c ≤ 64 by omega)
    · obtain ⟨r, replies', rest', hr, hlog', hsplit', herr, hstatus⟩ :=
        ih hcs (i + c) (storeAt buf i (unpackBytes c q.value)) q.unit hrest
      refine ⟨r, replies ++ replies', rest', (readChunks_cons_ok hq hok _ _ _).trans hr, ?_, ?_, herr, hstatus⟩
      · rw [hlog', hlog, List.append_assoc]
      · rw [deliveredBytes_append, List.append_assoc, hsplit', hsplit]
    · exact ⟨_, replies, rest, readChunks_cons_short hq heos _ _ _, hlog, hsplit, rfl, .inr ⟨rfl, hnil⟩⟩

/-- RDBYTES from a source that hands out a byte list completes, and the bytes it stores are the first of the bits buffered
and those the source has; it stores `len` bytes, or fewer with less than a byte behind them. -/
theorem readChunks_whole_stream {len : BitVec 32} {buf : List Byte} (u : ReaderUnit) {src : Source} {bytes : List Byte}
    (hlen : buf.length = len.toNat) (hsrc : src.Streams bytes) :
    ∃ r tail, readChunks (chunkSizes len.toNat) 0 buf u src = .next r ∧ r.err = ErrToken.zero ∧
      u.bits.append (streamBits u.order bytes) = (bufferBits (r.buf.take r.n)).append tail ∧ tail.Fits ∧
      r.buf.length = buf.length ∧ r.buf.drop r.n = buf.drop r.n ∧ r.n ≤ len.toNat ∧
      ((r.status = .ok ∧ r.n = len.toNat) ∨ (r.status = .endOfStream ∧ r.n < len.toNat ∧ tail.len < 8)) := by
  have hsum : 0 + (chunkSizes len.toNat).sum = len.toNat := by rw [chunkSizes_sum, Nat.zero_add]
  have hbuf : 0 + (chunkSizes len.toNat).sum ≤ buf.length := by rw [hsum, hlen]
  obtain ⟨r, replies, rest, hr, hlog, hsplit, herr, hstatus⟩ :=
    readChunks_stream (fun c hc => (chunkSizes_bounds hc).2) 0 buf u hsrc
  obtain ⟨-, hle, hok, hshort, hlength, hdrop⟩ := readChunks_stored hr hbuf
  obtain ⟨replies', stored, lost, hlog', hstored, hbits, hm, hlost, -, hempty⟩ := readChunks_conserves hr hbuf
  obtain rfl : replies = replies' := List.append_cancel_left (hlog.symm.trans hlog')
  obtain rfl : r.buf.take r.n = stored := by simpa using hstored
  rw [hsum] at hle hok hshort
  refine ⟨r, (lost.append r.unit.bits).append (streamBits u.order rest), hr, herr, ?_,
    (hlost.append r.unit.bits_fits).append (streamBits_fits _ _), hlength, hdrop, hle, ?_⟩
  · rw [← hsplit, streamBits_append, ← Bits.append_assoc, hbits]
    simp only [Bits.append_assoc]
  · obtain hs | ⟨hs, rfl⟩ := hstatus
    · exact .inl ⟨hs, hok hs⟩
    · exact .inr ⟨hs, hshort hs, by simpa [ReaderUnit.bits, hempty hs] using hm⟩

/-! ### What a loop of writes does to the stream -/

/-- The bits of a chunk of a host's buffer (42_byteadapter.md R161). -/
theorem bufferBits_chunk {buf : List Byte} {i c : Nat} (h : i + c ≤ buf.length) :
    (⟨low (chunkValue buf i c) (8 * c), 8 * c⟩ : Bits) = bufferBits ((buf.drop i).take c) := by
  have hlen : ((buf.drop i).take c).length = c := by
    rw [List.length_take, List.length_drop]
    omega
  have hlt := packBytes_lt ((buf.drop i).take c)
  rw [hlen] at hlt
  ext
  · exact Nat.mod_eq_of_lt hlt
  · simp only [bufferBits, hlen]

/-- The bits buffered before a loop of writes and the bytes it appended are, in order, those the sink accepted and those
buffered after. It appends all chunks, or stops at one whose write the sink refused (10_state.md R47, 42_byteadapter.md
R163). -/
theorem writeChunks_conserves {cs : List Nat} {i : Nat} {buf : List Byte} {u : WriterUnit} {snk : Sink} {r : WriteResult}
    (h : writeChunks cs i buf u snk = .next r) (hcs : ∀ c ∈ cs, c ≤ 8) (hbuf : i + cs.sum ≤ buf.length) :
    ∃ writes written, r.sink.log = snk.log ++ writes ∧ buf.take r.n = buf.take i ++ written ∧
      u.bits.append (bufferBits written) = (streamBits u.order (acceptedBytes writes)).append r.unit.bits ∧
      r.n = i + written.length ∧
      ((r.status = .ok ∧ r.n = i + cs.sum) ∨
        (r.status = .transportError ∧ (∃ done c rest, cs = done ++ c :: rest ∧ r.n = i + done.sum) ∧
          ∃ w acc, writes.getLast? = some w ∧ w.reply = .error acc r.err)) := by
  induction cs generalizing i u snk with
  | nil =>
    cases h
    exact ⟨[], [], by simp, by simp, by simp [acceptedBytes], rfl, .inl ⟨rfl, rfl⟩⟩
  | cons c cs ih =>
    obtain ⟨hc, hcs⟩ := List.forall_mem_cons.mp hcs
    rw [List.sum_cons] at hbuf ⊢
    obtain ⟨q, hq, ⟨hfail, rfl⟩ | ⟨hne, hr⟩⟩ := writeChunks_cons_eq_next h
    · cases writeBits_outcome hq with
      | rejected | buffered | emitted => cases hfail
      | failed _ _ bytes _ acc e =>
        exact ⟨[⟨bytes, .error acc e⟩], [], by simp, by simp, by simp [acceptedBytes], rfl,
          .inr ⟨rfl, ⟨[], c, cs, rfl, rfl⟩, _, acc, rfl, rfl⟩⟩
    · have hok : q.status = .ok := by
        cases writeBits_outcome hq with
        | rejected => omega
        | failed => exact absurd rfl hne
        | buffered | emitted => rfl
      obtain ⟨-, writes, hlog, hbits⟩ := writeBits_conserves hq hok
      obtain ⟨writes', written, hlog', htake, hbits', hn, hstatus⟩ := ih hr hcs (by omega)
      have hchunk : ((buf.drop i).take c).length = c := by
        rw [List.length_take, List.length_drop]
        omega
      refine ⟨writes ++ writes', (buf.drop i).take c ++ written, ?_, ?_, ?_, ?_, ?_⟩
      · rw [hlog', hlog, List.append_assoc]
      · rw [htake, List.take_add, List.append_assoc]
      · rw [writeBits_order hq] at hbits'
        rw [bufferBits_chunk (by omega)] at hbits
        rw [bufferBits_append, acceptedBytes_append, streamBits_append, ← Bits.append_assoc, hbits, Bits.append_assoc,
          hbits', Bits.append_assoc]
      · rw [hn, List.length_append, hchunk, Nat.add_assoc]
      · obtain ⟨hs, hn⟩ | ⟨hs, ⟨done, d, rest, rfl, hn⟩, w, acc, hlast, hreply⟩ := hstatus
        · exact .inl ⟨hs, by omega⟩
        · refine .inr ⟨hs, ⟨c :: done, d, rest, rfl, by rw [List.sum_cons]; omega⟩, w, acc, ?_, hreply⟩
          rw [List.getLast?_append, hlast]
          rfl

/-- A loop of writes goes on after an OK chunk (42_byteadapter.md R161). -/
theorem writeChunks_cons_ok {c i : Nat} {buf : List Byte} {u : WriterUnit} {snk : Sink} {q : WriteResult}
    (hq : writeBits (8 * c) (chunkValue buf i c) u snk = .next q) (hok : q.status = .ok) (cs : List Nat) :
    writeChunks (c :: cs) i buf u snk = writeChunks cs (i + c) buf q.unit q.sink := by
  simp [writeChunks, hq, hok]

/-- All chunks before one are of 8 bytes (42_byteadapter.md R161). -/
theorem chunkSizes_prefix {len c : Nat} {done rest : List Nat} (h : chunkSizes len = done ++ c :: rest) :
    done.sum % 8 = 0 ∧ done.sum < len := by
  induction done generalizing len with
  | nil =>
    refine ⟨rfl, Nat.pos_of_ne_zero ?_⟩
    rintro rfl
    cases h
  | cons d done ih =>
    obtain hsmall | ⟨n, rfl⟩ : len < 8 ∨ ∃ n, len = n + 8 := by
      rcases Nat.lt_or_ge len 8 with hlt | hge
      · exact .inl hlt
      · exact .inr ⟨len - 8, by omega⟩
    · rcases Nat.eq_zero_or_pos len with rfl | hpos
      · cases h
      · simp [chunkSizes_small hpos hsmall] at h
    · rw [chunkSizes_add_eight, List.cons_append, List.cons.injEq] at h
      obtain ⟨rfl, hrest⟩ := h
      obtain ⟨hmod, hlt⟩ := ih hrest
      rw [List.sum_cons]
      omega

/-- An OK flush leaves the Writer empty, and the sink has accepted the bits buffered before and the padding zeros
(41_bitwriter.md R133, R134). -/
theorem flushBits_conserves {u : WriterUnit} {snk : Sink} {r : WriteResult} (h : flushBits u snk = .next r)
    (hok : r.status = .ok) :
    r.unit.valid = 0#6 ∧ ∃ writes, r.sink.log = snk.log ++ writes ∧
      streamBits u.order (acceptedBytes writes) = u.bits.append ⟨0, paddingBits u.valid.toNat⟩ := by
  obtain ⟨hzero, rfl⟩ | ⟨-, reply, -, rfl⟩ := flushBits_eq_next h
  · have hempty : u.bits = .nil := by
      simp [WriterUnit.bits, writerContent, content, low, hzero, Nat.mod_one]
    refine ⟨BitVec.eq_of_toNat_eq hzero, [], by simp, ?_⟩
    simp [acceptedBytes, hempty, hzero, paddingBits]
  · cases reply with
    | error => cases hok
    | ok =>
      refine ⟨rfl, [⟨flushBytes u, .ok⟩], rfl, ?_⟩
      have hfits : writerContent u * 2 ^ paddingBits u.valid.toNat < 2 ^ (u.valid.toNat + paddingBits u.valid.toNat) :=
        concatBits_lt (writerContent_lt u) (Nat.two_pow_pos _)
      have hbytes : u.valid.toNat + paddingBits u.valid.toNat =
          8 * ((u.valid.toNat + paddingBits u.valid.toNat) / 8) := by
        simp only [paddingBits]
        omega
      rw [hbytes] at hfits
      rw [show acceptedBytes [⟨flushBytes u, .ok⟩] = flushBytes u from List.append_nil _, flushBytes,
        streamBits_emittedBytes _ hfits, ← hbytes]
      rfl

/-! ### The obligations on the streams -/

/-- The one response of a completed Reader command is the one it ends with. -/
theorem readerGave_endRead {s : State} {u : ReaderUnit} {src : Source} {q r : Response} :
    readerGave s (s.endRead u src q) r ↔ r = q := by
  simp [eq_comm]

/-- The one response of a completed Writer command is the one it ends with. -/
theorem writerGave_endWrite {s : State} {u : WriterUnit} {snk : Sink} {q r : Response} :
    writerGave s (s.endWrite u snk q) r ↔ r = q := by
  simp [eq_comm]

theorem repliesSince_endRead {s : State} {src : Source} {replies : List SourceReply}
    (h : src.log = s.source.log ++ replies) (u : ReaderUnit) (r : Response) :
    repliesSince s (s.endRead u src r) = replies := by
  simp [repliesSince, h]

theorem writesSince_endWrite {s : State} {snk : Sink} {writes : List SinkWrite}
    (h : snk.log = s.sink.log ++ writes) (u : WriterUnit) (r : Response) :
    writesSince s (s.endWrite u snk r) = writes := by
  simp [writesSince, h]

/-- Settles O13: `readBits_conserves`, read off the response, whose fields hold every value that fits 64 bits. -/
theorem rdbitsConservesTheStream : Obligations.RdbitsConservesTheStream := by
  intro s t count r h hgave fresh
  obtain ⟨q, hq, rfl⟩ := execRdbits_eq_next h
  obtain rfl := readerGave_endRead.mp hgave
  obtain ⟨replies, hlog, hbits⟩ := readBits_conserves hq
  obtain ⟨hn, hvalue⟩ := readBits_value_fits hq
  have hvalue : q.value < 2 ^ 64 := hvalue.trans_le (Nat.pow_le_pow_right (by decide) hn)
  have hfresh : fresh = deliveredBytes replies := congrArg deliveredBytes (repliesSince_endRead hlog _ _)
  have hn64 : q.n < 2 ^ 64 := by omega
  simp only [respondErr, hfresh, Bool.false_eq_true, if_false, zext64_toNat hvalue, zext64_toNat hn64]
  exact ⟨congrArg Bits.val hbits, congrArg Bits.len hbits⟩

/-- Settles O17: `readChunks_conserves` from the start of the buffer, and `readChunks_stored` for the rest of it. -/
theorem rdbytesConservesTheStream : Obligations.RdbytesConservesTheStream := by
  intro s t len buf r h hgave fresh
  obtain ⟨hlen, q, hq, rfl⟩ := execRdbytes_eq_next h
  obtain rfl := readerGave_endRead.mp hgave
  have hbuf : 0 + (chunkSizes len.toNat).sum = buf.length := by rw [chunkSizes_sum, hlen, Nat.zero_add]
  obtain ⟨-, hn, -, -, hlength, hdrop⟩ := readChunks_stored hq hbuf.le
  obtain ⟨replies, stored, lost, hlog, hstored, hbits, hm, hlost, hnone, hempty⟩ := readChunks_conserves hq hbuf.le
  have hfresh : fresh = deliveredBytes replies := congrArg deliveredBytes (repliesSince_endRead hlog _ _)
  obtain rfl : q.buf.take q.n = stored := by simpa using hstored
  have hn64 : q.n < 2 ^ 64 := by
    have := len.isLt
    omega
  rw [bufferBits_take (show q.n ≤ q.buf.length by omega)] at hbits
  simp only [respondBuf, hfresh, zext64_toNat hn64]
  refine ⟨lost.len, lost.val, hm, hlost, fun hs => by rw [hnone hs]; rfl, hempty, congrArg Bits.val hbits,
    congrArg Bits.len hbits, hlength, hdrop⟩

/-- Settles O24: an OK write by `writeBits_conserves`, any other by `writeBits_not_ok`. -/
theorem wrbitsConservesTheStream : Obligations.WrbitsConservesTheStream := by
  intro s t count value r h hgave out
  obtain ⟨q, hq, rfl⟩ := execWrbits_eq_next h
  obtain rfl := writerGave_endWrite.mp hgave
  refine ⟨fun hok => ?_, fun hne => ?_⟩
  · obtain ⟨hn, writes, hlog, hbits⟩ := writeBits_conserves hq hok
    have hout : out = acceptedBytes writes := congrArg acceptedBytes (writesSince_endWrite hlog _ _)
    rw [hout]
    refine ⟨congrArg Bits.val hbits, congrArg Bits.len hbits, ?_⟩
    exact (zext64_toNat (by rw [hn]; omega)).trans hn
  · obtain ⟨hunit, writes, hlog, hnone⟩ := writeBits_not_ok hq hne
    exact ⟨hunit, (congrArg acceptedBytes (writesSince_endWrite hlog _ _)).trans hnone⟩

/-- Settles O34: `writeChunks_conserves` from the start of the buffer; the chunks before a refused one are of 8 bytes. -/
theorem wrbytesConservesTheStream : Obligations.WrbytesConservesTheStream := by
  intro s t len buf r h hgave out
  obtain ⟨hlen, q, hq, rfl⟩ := execWrbytes_eq_next h
  obtain rfl := writerGave_endWrite.mp hgave
  have hbuf : 0 + (chunkSizes len.toNat).sum = buf.length := by rw [chunkSizes_sum, hlen, Nat.zero_add]
  obtain ⟨writes, written, hlog, hwritten, hbits, hcount, hstatus⟩ :=
    writeChunks_conserves hq (fun c hc => (chunkSizes_bounds hc).2) hbuf.le
  obtain rfl : buf.take q.n = written := by simpa using hwritten
  have hn : q.n ≤ buf.length := by
    rw [List.length_take] at hcount
    omega
  have hn64 : q.n < 2 ^ 64 := by
    have := len.isLt
    omega
  have hout : out = acceptedBytes writes := congrArg acceptedBytes (writesSince_endWrite hlog _ _)
  rw [bufferBits_take hn] at hbits
  simp only [respondErr, hout, zext64_toNat hn64, writesSince_endWrite hlog]
  refine ⟨congrArg Bits.val hbits, congrArg Bits.len hbits, ?_⟩
  obtain ⟨hs, hn⟩ | ⟨hs, ⟨done, c, rest, hchunks, hn⟩, hlast⟩ := hstatus
  · exact .inl ⟨hs, by rw [hn, hbuf, hlen]⟩
  · obtain ⟨hmod, hlt⟩ := chunkSizes_prefix hchunks
    exact .inr ⟨hs, by omega, by omega, hlast⟩

/-- Settles O18: the bytes stored are the first of all the bits (`readChunks_whole_stream`), and how many of them there are
follows from the length of what is behind them. -/
theorem rdbytesFromStream : Obligations.RdbytesFromStream := by
  intro s len buf bytes hlen hsrc total bits n
  obtain ⟨q, tail, hq, herr, hbits, hfits, hlength, hdrop, hle, hstatus⟩ := readChunks_whole_stream s.reader hlen hsrc
  rw [bufferBits_take (show q.n ≤ q.buf.length by omega)] at hbits
  have htotal : total = 8 * q.n + tail.len := congrArg Bits.len hbits
  have hn : q.n = n := by obtain ⟨-, hn⟩ | ⟨-, hn, htail⟩ := hstatus <;> omega
  have hs : q.status = if 8 * len.toNat ≤ total then .ok else .endOfStream := by
    obtain ⟨hs, hn⟩ | ⟨hs, hn, htail⟩ := hstatus
    · rw [if_pos (show 8 * len.toNat ≤ total by omega), hs]
    · rw [if_neg (show ¬ 8 * len.toNat ≤ total by omega), hs]
  have hn64 : q.n < 2 ^ 64 := by
    have := len.isLt
    omega
  refine ⟨_, _, exec_rdbytes_of_next hlen hq, readerGave_endRead.mpr rfl, hs, (zext64_toNat hn64).trans hn, rfl, herr,
    hlength, ?_, hn ▸ hdrop⟩
  rw [← hn, show total - 8 * q.n = tail.len by omega]
  exact (Bits.append_val_div ⟨packBytes (q.buf.take q.n), 8 * q.n⟩ hfits).symm.trans (congrArg (·.val / _) hbits.symm)

/-- Settles O32: `flushBits_conserves`, read off value and length. -/
theorem flushDeliversAllBits : Obligations.FlushDeliversAllBits := by
  intro s t r h hgave hok out
  obtain ⟨q, hq, rfl⟩ := execFlush_eq_next h
  obtain rfl := writerGave_endWrite.mp hgave
  obtain ⟨hempty, writes, hlog, hbits⟩ := flushBits_conserves hq hok
  have hout : out = acceptedBytes writes := congrArg acceptedBytes (writesSince_endWrite hlog _ _)
  rw [hout]
  exact ⟨hempty, congrArg Bits.len hbits, congrArg Bits.val hbits⟩

end Sys2Proof.Machine
end

section
/-!
SUPPORT. How a command ends by the answers of its transport: it stops at an answer that does not come or lies outside the
interface, and it completes when all its requests are answered within it (93_implementation_defined.md I8, I15, 10_state.md
R34).
-/

namespace Sys2Proof.Machine

/-! ### Stops -/

/-- The outcome that is a given stop, a fault or a refusal. -/
def stopped {α : Type} : Fault ⊕ Refusal → Host.Outcome α Fault Refusal
  | .inl f => .fault f
  | .inr r => .refused r

/-- Nothing follows a stop. -/
@[simp] theorem andThen_stopped {α β : Type} (x : Fault ⊕ Refusal) (f : α → Host.Outcome β Fault Refusal) :
    andThen (stopped x) f = stopped x := by cases x <;> rfl

/-- A bit read whose request stops, stops. -/
theorem readBits_stopped {count : Nat} {u : ReaderUnit} {src : Source} {x : Fault ⊕ Refusal} (hcount : count ≤ 64)
    (hvalid : u.valid.toNat < count) (h : srcRead src = stopped x) : readBits count u src = stopped x := by
  rw [readBits_refill src hcount hvalid, h, andThen_stopped]

/-- A loop of reads stops where a chunk does. -/
theorem readChunks_cons_stopped {c : Nat} {u : ReaderUnit} {src : Source} {x : Fault ⊕ Refusal}
    (h : readBits (8 * c) u src = stopped x) (cs : List Nat) (i : Nat) (buf : List Byte) :
    readChunks (c :: cs) i buf u src = stopped x := by
  simp [readChunks, h]

/-- RDBYTES stops at a request that stops, when the register and the full refills before it do not suffice
(60_exceptions.md R219). -/
theorem readChunks_stopped {tail : List SourceAnswer} {rest : SourceRest} {x : Fault ⊕ Refusal}
    (hstop : ∀ log, srcRead ⟨tail, rest, log⟩ = stopped x) {cs : List Nat} (hcs : ∀ c ∈ cs, c ≤ 8)
    {full : List SourceAnswer} (hfull : ∀ a ∈ full, a.isFull = true) {u : ReaderUnit}
    (hmore : u.valid.toNat + 64 * full.length < 8 * cs.sum) (i : Nat) (buf : List Byte) (log : List SourceReply) :
    readChunks cs i buf u ⟨full ++ tail, rest, log⟩ = stopped x := by
  induction cs generalizing full u i buf log with
  | nil => simp at hmore
  | cons c cs ih =>
    obtain ⟨hc, hcs⟩ := List.forall_mem_cons.mp hcs
    have hcount : 8 * c ≤ 64 := by omega
    rw [List.sum_cons] at hmore
    obtain hvalid | hvalid := Nat.lt_or_ge u.valid.toNat (8 * c)
    · cases full with
      | nil => exact readChunks_cons_stopped (readBits_stopped hcount hvalid (hstop log)) cs i buf
      | cons a full =>
        obtain ⟨ha, hrest⟩ := List.forall_mem_cons.mp hfull
        rw [List.length_cons] at hmore
        cases a with
        | error | dataWithError => cases ha
        | data bytes =>
          have hlen : bytes.length = 8 := by simpa [SourceAnswer.isFull] using ha
          obtain ⟨q, hq, hsrc, ⟨hok, hleft⟩ | ⟨-, hshort⟩⟩ :=
            readBits_data (src := ⟨.data bytes :: full ++ tail, rest, log⟩) hcount hvalid rfl hlen.le
          case inr => omega
          rw [readChunks_cons_ok hq hok, hsrc]
          exact ih hcs hrest (by omega) _ _ _
    · rw [readChunks_cons_ok (readBits_buffered _ hcount hvalid) rfl]
      exact ih hcs hfull (by rw [readBuffered_valid _ hvalid]; omega) _ _ _

/-- A bit write whose fill stops, stops. -/
theorem writeBits_stopped {count value : Nat} {u : WriterUnit} {snk : Sink} {x : Fault ⊕ Refusal} (hcount : count ≤ 64)
    (hroom : writerRoom u ≤ count) (h : ∀ bytes : List Byte, bytes.length = 8 → snkWrite bytes snk = stopped x) :
    writeBits count value u snk = stopped x := by
  rw [writeBits_fill value snk hcount hroom, h _ (emittedBytes_length _ _ _), andThen_stopped]

/-- A loop of writes stops where a chunk does. -/
theorem writeChunks_cons_stopped {c i : Nat} {buf : List Byte} {u : WriterUnit} {snk : Sink} {x : Fault ⊕ Refusal}
    (h : writeBits (8 * c) (chunkValue buf i c) u snk = stopped x) (cs : List Nat) :
    writeChunks (c :: cs) i buf u snk = stopped x := by
  simp [writeChunks, h]

/-- WRBYTES stops at a write that stops, when the bytes reach so far (60_exceptions.md R219). -/
theorem writeChunks_stopped {tail : List SinkAnswer} {rest : SinkRest} {x : Fault ⊕ Refusal}
    (hstop : ∀ log, ∀ bytes : List Byte, bytes.length = 8 → snkWrite bytes ⟨tail, rest, log⟩ = stopped x) {cs : List Nat}
    (hcs : ∀ c ∈ cs, c ≤ 8) {oks : List SinkAnswer} (hoks : ∀ a ∈ oks, a = .ok) {u : WriterUnit}
    (hmore : 64 * (oks.length + 1) ≤ u.valid.toNat + 8 * cs.sum) (i : Nat) (buf : List Byte) (log : List SinkWrite) :
    writeChunks cs i buf u ⟨oks ++ tail, rest, log⟩ = stopped x := by
  induction cs generalizing oks u i log with
  | nil =>
    have := u.valid.isLt
    rw [List.sum_nil] at hmore
    omega
  | cons c cs ih =>
    obtain ⟨hc, hcs⟩ := List.forall_mem_cons.mp hcs
    have hcount : 8 * c ≤ 64 := by omega
    have hsum := writerRoom_add_valid u
    rw [List.sum_cons] at hmore
    obtain hroom | hroom := Nat.lt_or_ge (8 * c) (writerRoom u)
    · rw [writeChunks_cons_ok (writeBits_buffered _ _ hroom) rfl]
      have hvalid : (appended (8 * c) (low (chunkValue buf i c) (8 * c)) u).valid.toNat = u.valid.toNat + 8 * c :=
        ofNat6_toNat (by omega)
      exact ih hcs hoks (by rw [hvalid]; omega) _ _
    · cases oks with
      | nil => exact writeChunks_cons_stopped (writeBits_stopped hcount hroom (hstop log)) cs
      | cons a oks =>
        obtain ⟨rfl, hrest⟩ := List.forall_mem_cons.mp hoks
        rw [List.length_cons] at hmore
        have hq := writeBits_fill (chunkValue buf i c) ⟨.ok :: oks ++ tail, rest, log⟩ hcount hroom
        rw [snkWrite_ok rfl, andThen_next] at hq
        rw [writeChunks_cons_ok hq rfl]
        have hvalid : (refilled (8 * c) (low (chunkValue buf i c) (8 * c)) u).valid.toNat = 8 * c - writerRoom u :=
          ofNat6_toNat (by have := u.valid.isLt; omega)
        exact ih hcs hrest (u := refilled _ _ u) (by rw [hvalid]; omega) _ _

/-- A flush whose write stops, stops. -/
theorem flushBits_stopped {u : WriterUnit} {snk : Sink} {x : Fault ⊕ Refusal} (hvalid : u.valid ≠ 0#6)
    (h : ∀ bytes : List Byte, bytes.length = (u.valid.toNat + 7) / 8 → snkWrite bytes snk = stopped x) :
    flushBits u snk = stopped x := by
  have hne : u.valid.toNat ≠ 0 := fun h => hvalid (BitVec.eq_of_toNat_eq h)
  simp [flushBits, hne, h _ (flushBytes_length u)]

/-! ### Commands that stop -/

theorem exec_rdbits_stopped {s : State} {count : BitVec 8} {d : Bool} {x : Fault ⊕ Refusal} (hcount : count.toNat ≤ 64)
    (hvalid : s.reader.valid.toNat < count.toNat) (h : srcRead s.source = stopped x) :
    exec (.rdbits count d) s = stopped x := by
  simp [exec, execRdbits, readBits_stopped hcount hvalid h]

theorem exec_rdbytes_stopped {s : State} {len : BitVec 32} {buf : List Byte} {full tail : List SourceAnswer}
    {x : Fault ⊕ Refusal} (hlen : buf.length = len.toNat) (hscript : s.source.script = full ++ tail)
    (hfull : ∀ a ∈ full, a.isFull = true) (hmore : s.reader.valid.toNat + 64 * full.length < 8 * len.toNat)
    (hstop : ∀ log, srcRead ⟨tail, s.source.rest, log⟩ = stopped x) : exec (.rdbytes len buf) s = stopped x := by
  have hsrc : s.source = ⟨full ++ tail, s.source.rest, s.source.log⟩ := by rw [← hscript]
  have hloop := readChunks_stopped hstop (fun c hc => (chunkSizes_bounds hc).2) hfull
    (by rwa [chunkSizes_sum]) 0 buf s.source.log
  rw [← hsrc] at hloop
  simp [exec, execRdbytes, hlen, hloop]

theorem exec_wrbits_stopped {s : State} {count : BitVec 8} {value : Word} {x : Fault ⊕ Refusal} (hcount : count.toNat ≤ 64)
    (hfill : 64 ≤ s.writer.valid.toNat + count.toNat)
    (h : ∀ bytes : List Byte, bytes.length = 8 → snkWrite bytes s.sink = stopped x) :
    exec (.wrbits count value) s = stopped x := by
  have hsum := writerRoom_add_valid s.writer
  simp [exec, execWrbits, writeBits_stopped hcount (show writerRoom s.writer ≤ count.toNat by omega) h]

theorem exec_wrbytes_stopped {s : State} {len : BitVec 32} {buf : List Byte} {oks tail : List SinkAnswer}
    {x : Fault ⊕ Refusal} (hlen : buf.length = len.toNat) (hscript : s.sink.script = oks ++ tail)
    (hoks : ∀ a ∈ oks, a = .ok) (hmore : 64 * (oks.length + 1) ≤ s.writer.valid.toNat + 8 * len.toNat)
    (hstop : ∀ log, ∀ bytes : List Byte, bytes.length = 8 → snkWrite bytes ⟨tail, s.sink.rest, log⟩ = stopped x) :
    exec (.wrbytes len buf) s = stopped x := by
  have hsnk : s.sink = ⟨oks ++ tail, s.sink.rest, s.sink.log⟩ := by rw [← hscript]
  have hloop := writeChunks_stopped hstop (fun c hc => (chunkSizes_bounds hc).2) hoks
    (by rwa [chunkSizes_sum]) 0 buf s.sink.log
  rw [← hsnk] at hloop
  simp [exec, execWrbytes, hlen, hloop]

theorem exec_flush_stopped {s : State} {x : Fault ⊕ Refusal} (hvalid : s.writer.valid ≠ 0#6)
    (h : ∀ bytes : List Byte, bytes.length = (s.writer.valid.toNat + 7) / 8 → snkWrite bytes s.sink = stopped x) :
    exec .flush s = stopped x := by
  simp [exec, execFlush, flushBits_stopped hvalid h]

/-- A command that awaits an answer which does not come has no outcome (93 I15). -/
theorem exec_awaitsSilence {s : State} {i : Instr} (h : i.AwaitsSilence s) : ∃ f, exec i s = .fault f := by
  cases i with
  | rdbits count d =>
    obtain ⟨hcount, hvalid, hanswer⟩ := h
    exact ⟨_, exec_rdbits_stopped (x := .inl .awaitingSource) hcount hvalid (srcRead_silent hanswer)⟩
  | rdbytes len buf =>
    obtain ⟨hlen, hrest, hfull, hmore⟩ := h
    refine ⟨_, exec_rdbytes_stopped (x := .inl .awaitingSource) hlen (List.append_nil _).symm hfull hmore fun log => ?_⟩
    exact srcRead_silent (by simp [Source.answer, hrest])
  | wrbits count value =>
    obtain ⟨hcount, hfill, hanswer⟩ := h
    exact ⟨_, exec_wrbits_stopped (x := .inl .awaitingSink) hcount hfill fun bytes hb => snkWrite_silent (hb ▸ hanswer)⟩
  | wrbytes len buf =>
    obtain ⟨hlen, hrest, hoks, hmore⟩ := h
    refine ⟨_, exec_wrbytes_stopped (x := .inl .awaitingSink) hlen (List.append_nil _).symm hoks hmore fun log bytes _ => ?_⟩
    exact snkWrite_silent (by simp [Sink.answer, hrest])
  | padding => cases h
  | flush =>
    obtain ⟨hvalid, hanswer⟩ := h
    exact ⟨_, exec_flush_stopped (x := .inl .awaitingSink) hvalid fun bytes hb => snkWrite_silent (hb ▸ hanswer)⟩

/-! ### Commands that complete -/

/-- Answers to so many requests are answers to fewer. -/
theorem Source.AnswersWithin.pred {src : Source} {k : Nat} (h : src.AnswersWithin (k + 1)) : src.AnswersWithin k := by
  obtain ⟨hfits, hmany⟩ := h
  refine ⟨fun a ha => hfits a (List.take_subset_take_left _ (Nat.le_succ k) ha), hmany.imp_left ?_⟩
  omega

/-- A source that answers `k + 1` requests within the interface answers the first of them. -/
theorem Source.AnswersWithin.read {src : Source} {k : Nat} (h : src.AnswersWithin (k + 1)) :
    ∃ reply, srcRead src = .next (reply, src.answered reply) := by
  obtain ⟨script, rest, log⟩ := src
  obtain ⟨hfits, hmany⟩ := h
  cases script with
  | cons a script => exact srcRead_fits (a := a) rfl (hfits a List.mem_cons_self)
  | nil =>
    cases rest with
    | stream bytes => exact srcRead_fits (a := .data (bytes.take 8)) rfl (by simp [SourceAnswer.fits])
    | unknown => exact srcRead_fits rfl (unknownSourceAnswer_fits log.length)
    | silent => exact absurd rfl (hmany.resolve_left (Nat.not_succ_le_zero k))

/-- A source that answers `k + 1` requests within the interface answers `k` more after the first of them. -/
theorem Source.AnswersWithin.answered {src : Source} {k : Nat} (h : src.AnswersWithin (k + 1)) (reply : SourceReply) :
    (src.answered reply).AnswersWithin k := by
  obtain ⟨script, rest, log⟩ := src
  obtain ⟨hfits, hmany⟩ := h
  cases script with
  | cons a script => exact ⟨(List.forall_mem_cons.mp hfits).2, hmany.imp_left Nat.le_of_succ_le_succ⟩
  | nil =>
    refine ⟨by simp [Source.answered], .inr ?_⟩
    cases rest with
    | stream | unknown => nofun
    | silent => exact absurd rfl (hmany.resolve_left (Nat.not_succ_le_zero k))

/-- A bit read completes when the source answers its request within the interface. -/
theorem readBits_completes (count : Nat) (u : ReaderUnit) {src : Source} {k : Nat} (h : src.AnswersWithin (k + 1)) :
    ∃ q, readBits count u src = .next q ∧ q.source.AnswersWithin k ∧ q.status ≠ .illegalCommand := by
  obtain ⟨q, hq⟩ : ∃ q, readBits count u src = .next q := by
    obtain hcount | hcount := Nat.lt_or_ge 64 count
    · exact ⟨_, readBits_rejected u src hcount⟩
    obtain hvalid | hvalid := Nat.lt_or_ge u.valid.toNat count
    · obtain ⟨reply, hread⟩ := h.read
      rw [readBits_refill src hcount hvalid, hread]
      exact ⟨_, rfl⟩
    · exact ⟨_, readBits_buffered src hcount hvalid⟩
  refine ⟨q, hq, ?_⟩
  cases readBits_outcome hq with
  | rejected | buffered => exact ⟨h.pred, nofun⟩
  | failed | short | refilled => exact ⟨h.answered _, nofun⟩

/-- A loop of reads completes when the source answers a request for each chunk within the interface. -/
theorem readChunks_completes {cs : List Nat} (i : Nat) (buf : List Byte) (u : ReaderUnit) {src : Source}
    (h : src.AnswersWithin cs.length) :
    ∃ r, readChunks cs i buf u src = .next r ∧ r.status ≠ .illegalCommand := by
  induction cs generalizing i buf u src with
  | nil => exact ⟨_, rfl, nofun⟩
  | cons c cs ih =>
    obtain ⟨q, hq, hsrc, -⟩ := readBits_completes (8 * c) u h
    rw [readChunks, hq, andThen_next]
    split
    · exact ih _ _ _ hsrc
    all_goals exact ⟨_, rfl, nofun⟩

/-- Answers to so many writes are answers to fewer. -/
theorem Sink.AnswersWithin.pred {snk : Sink} {k m : Nat} (h : snk.AnswersWithin (k + 1) m) : snk.AnswersWithin k m := by
  obtain ⟨hfits, hmany⟩ := h
  refine ⟨fun a ha => hfits a (List.take_subset_take_left _ (Nat.le_succ k) ha), hmany.imp_left ?_⟩
  omega

/-- A sink that answers `k + 1` writes within the interface answers the first of them. -/
theorem Sink.AnswersWithin.write {snk : Sink} {k : Nat} {bytes : List Byte}
    (h : snk.AnswersWithin (k + 1) bytes.length) :
    ∃ reply, snkWrite bytes snk = .next (reply, snk.answered bytes reply) := by
  obtain ⟨script, rest, log⟩ := snk
  obtain ⟨hfits, hmany⟩ := h
  cases script with
  | cons a script => exact snkWrite_fits (a := a) rfl (hfits a List.mem_cons_self)
  | nil =>
    cases rest with
    | accepting => exact snkWrite_fits (a := .ok) rfl rfl
    | unknown => exact snkWrite_fits rfl (unknownSinkAnswer_fits log.length bytes.length)
    | silent => exact absurd rfl (hmany.resolve_left (Nat.not_succ_le_zero k))

/-- A sink that answers `k + 1` writes within the interface answers `k` more after the first of them. -/
theorem Sink.AnswersWithin.answered {snk : Sink} {k m : Nat} (h : snk.AnswersWithin (k + 1) m) (bytes : List Byte)
    (reply : SinkReply) : (snk.answered bytes reply).AnswersWithin k m := by
  obtain ⟨script, rest, log⟩ := snk
  obtain ⟨hfits, hmany⟩ := h
  cases script with
  | cons a script => exact ⟨(List.forall_mem_cons.mp hfits).2, hmany.imp_left Nat.le_of_succ_le_succ⟩
  | nil => exact ⟨by simp [Sink.answered], .inr (hmany.resolve_left (Nat.not_succ_le_zero k))⟩

/-- A bit write completes when the sink answers its write within the interface. -/
theorem writeBits_completes (count value : Nat) (u : WriterUnit) {snk : Sink} {k : Nat} (h : snk.AnswersWithin (k + 1) 8) :
    ∃ q, writeBits count value u snk = .next q ∧ q.sink.AnswersWithin k 8 ∧ q.status ≠ .illegalCommand := by
  obtain ⟨q, hq⟩ : ∃ q, writeBits count value u snk = .next q := by
    obtain hcount | hcount := Nat.lt_or_ge 64 count
    · exact ⟨_, writeBits_rejected value u snk hcount⟩
    obtain hroom | hroom := Nat.lt_or_ge count (writerRoom u)
    · exact ⟨_, writeBits_buffered value snk hroom⟩
    · obtain ⟨reply, hwrite⟩ := Sink.AnswersWithin.write
        (bytes := emittedBytes u.order 8 (fullWord count (low value count) u)) (by rwa [emittedBytes_length])
      rw [writeBits_fill value snk hcount hroom, hwrite]
      exact ⟨_, rfl⟩
  refine ⟨q, hq, ?_⟩
  cases writeBits_outcome hq with
  | rejected | buffered => exact ⟨h.pred, nofun⟩
  | emitted | failed => exact ⟨h.answered _ _, nofun⟩

/-- A loop of writes completes when the sink answers a write for each chunk within the interface. -/
theorem writeChunks_completes {cs : List Nat} (i : Nat) (buf : List Byte) (u : WriterUnit) {snk : Sink}
    (h : snk.AnswersWithin cs.length 8) :
    ∃ r, writeChunks cs i buf u snk = .next r ∧ r.status ≠ .illegalCommand := by
  induction cs generalizing i u snk with
  | nil => exact ⟨_, rfl, nofun⟩
  | cons c cs ih =>
    obtain ⟨q, hq, hsnk, -⟩ := writeBits_completes (8 * c) (chunkValue buf i c) u h
    rw [writeChunks, hq, andThen_next]
    split
    · exact ⟨_, rfl, nofun⟩
    · exact ih _ _ hsnk

/-- A flush completes when the sink answers its write within the interface. -/
theorem flushBits_completes (u : WriterUnit) {snk : Sink} (h : snk.AnswersWithin 1 ((u.valid.toNat + 7) / 8)) :
    ∃ r, flushBits u snk = .next r ∧ r.status ≠ .illegalCommand := by
  rw [← flushBytes_length] at h
  obtain ⟨reply, hwrite⟩ := h.write
  by_cases hvalid : u.valid.toNat = 0
  · exact ⟨⟨.ok, 0, ErrToken.zero, u, snk⟩, if_pos hvalid, nofun⟩
  · refine ⟨_, by rw [flushBits, if_neg hvalid, hwrite]; rfl, ?_⟩
    cases reply with
    | ok | error => simp [settleWrite]

/-! ### The obligations -/

/-- Settles O45: each clause is a command that stops, with a refusal as the stop. -/
theorem outsideInterfaceIsRefused : Obligations.OutsideInterfaceIsRefused := by
  intro s
  refine ⟨?rdbits, ?rdbytes, ?wrbits, ?wrbytes, ?flush, ?buffer⟩
  case rdbits =>
    intro count d a hcount hvalid hanswer hfits
    exact exec_rdbits_stopped (x := .inr _) hcount hvalid (srcRead_outside hanswer hfits)
  case rdbytes =>
    intro len buf good rest bad hlen hscript hgood hbad hmore
    exact exec_rdbytes_stopped (x := .inr _) hlen hscript hgood hmore fun log => srcRead_outside rfl hbad
  case wrbits =>
    intro count value a hcount hfill hanswer hfits
    exact exec_wrbits_stopped (x := .inr _) hcount hfill fun bytes hb => snkWrite_outside (hb ▸ hanswer) (hb ▸ hfits)
  case wrbytes =>
    intro len buf good rest bad hlen hscript hgood hbad hmore
    exact exec_wrbytes_stopped (x := .inr _) hlen hscript hgood hmore fun log bytes hb => snkWrite_outside rfl (hb ▸ hbad)
  case flush =>
    intro a hvalid hanswer hfits
    exact exec_flush_stopped (x := .inr _) hvalid fun bytes hb => snkWrite_outside (hb ▸ hanswer) (hb ▸ hfits)
  case buffer =>
    intro len buf hlen
    exact ⟨if_neg hlen, if_neg hlen⟩

/-- Settles O46: the bit command or the loop completes, and the command answers with what it gives. -/
theorem wellFormedCommandsComplete : Obligations.WellFormedCommandsComplete := by
  intro s i hwf
  constructor
  · intro hport h
    cases i with
    | rdbits count d =>
      obtain ⟨q, hq, -, hstatus⟩ := readBits_completes count.toNat s.reader h
      exact ⟨_, _, exec_rdbits_of_next hq, rfl, rfl, hstatus⟩
    | rdbytes len buf =>
      have hlen : buf.length = len.toNat := by simpa [Instr.wellFormed] using hwf
      obtain ⟨r, hr, hstatus⟩ := readChunks_completes (cs := chunkSizes len.toNat) 0 buf s.reader
        (by rwa [chunkSizes_length])
      exact ⟨_, _, exec_rdbytes_of_next hlen hr, rfl, rfl, hstatus⟩
    | wrbits | wrbytes | padding | flush => cases hport
  · intro hport h
    cases i with
    | rdbits | rdbytes => cases hport
    | wrbits count value =>
      obtain ⟨q, hq, -, hstatus⟩ := writeBits_completes count.toNat value.toNat s.writer h
      exact ⟨_, _, exec_wrbits_of_next hq, rfl, rfl, hstatus⟩
    | wrbytes len buf =>
      have hlen : buf.length = len.toNat := by simpa [Instr.wellFormed] using hwf
      obtain ⟨r, hr, hstatus⟩ := writeChunks_completes (cs := chunkSizes len.toNat) 0 buf s.writer
        (by rwa [chunkSizes_length])
      exact ⟨_, _, exec_wrbytes_of_next hlen hr, rfl, rfl, hstatus⟩
    | padding => exact ⟨_, _, rfl, rfl, rfl, nofun⟩
    | flush =>
      obtain ⟨r, hr, hstatus⟩ := flushBits_completes s.writer h
      exact ⟨_, _, exec_flush_of_next hr, rfl, rfl, hstatus⟩

/-- Settles O50: `exec` of the awaiting command is a fault, and by O47 a fault makes the unit wait. -/
theorem silentTransportKeepsUnitWaiting : Obligations.SilentTransportKeepsUnitWaiting := by
  intro s p ts c port i hturn haccept hdecode hawaits
  obtain ⟨hcurrent, -, -⟩ := Port.accept_some haccept
  have hawaits' : i.AwaitsSilence { s.setPort p port with agenda := ts } := by cases p <;> exact hawaits
  obtain ⟨f, hf⟩ := exec_awaitsSilence hawaits'
  obtain ⟨-, -, hwait⟩ := stepRunsTheDecodedCommand s p ts c port i hturn haccept hdecode
  exact ⟨hwait f hf, hcurrent, by simp [Port.accept, hcurrent]⟩

end Sys2Proof.Machine
end

section
/-!
SUPPORT. The register bits above the count cannot be seen (10_state.md R25): a relation between two outcomes, kept by each
operation from units with the same content.
-/

namespace Sys2Proof.Machine

/-! ### Outcomes that are alike -/

/-- Two outcomes of one kind, with the same stop or with results in the relation. -/
inductive EndsAlike {α : Type} (R : α → α → Prop) :
    Host.Outcome α Fault Refusal → Host.Outcome α Fault Refusal → Prop
  | next {a b : α} (h : R a b) : EndsAlike R (.next a) (.next b)
  | fault (f : Fault) : EndsAlike R (.fault f) (.fault f)
  | refused (r : Refusal) : EndsAlike R (.refused r) (.refused r)

/-- An outcome is like itself. -/
theorem EndsAlike.refl {α : Type} (o : Host.Outcome α Fault Refusal) : EndsAlike Eq o o := by
  cases o with
  | next a => exact .next (Eq.refl a)
  | fault f => exact .fault f
  | refused r => exact .refused r

/-- Sequences are alike when their first parts are, and the rest from related results. -/
theorem EndsAlike.andThen {α β : Type} {R : α → α → Prop} {S : β → β → Prop} {o o' : Host.Outcome α Fault Refusal}
    {f g : α → Host.Outcome β Fault Refusal} (h : EndsAlike R o o') (hfg : ∀ a b, R a b → EndsAlike S (f a) (g b)) :
    EndsAlike S (Machine.andThen o f) (Machine.andThen o' g) := by
  cases h with
  | next h => exact hfg _ _ h
  | fault f => exact .fault f
  | refused r => exact .refused r

theorem EndsAlike.of_next {α : Type} {R : α → α → Prop} {a : α} {o : Host.Outcome α Fault Refusal}
    (h : EndsAlike R (.next a) o) : ∃ b, o = .next b ∧ R a b := by
  cases h with
  | next h => exact ⟨_, rfl, h⟩

theorem EndsAlike.of_fault {α : Type} {R : α → α → Prop} {f : Fault} {o : Host.Outcome α Fault Refusal}
    (h : EndsAlike R (.fault f) o) : o = .fault f := by
  cases h
  rfl

theorem EndsAlike.of_refused {α : Type} {R : α → α → Prop} {r : Refusal} {o : Host.Outcome α Fault Refusal}
    (h : EndsAlike R (.refused r) o) : o = .refused r := by
  cases h
  rfl

/-- Results of a bit read that differ at most in register bits above the count. -/
def ReadResult.SameButGarbage (p q : ReadResult) : Prop := p.unit.SameContent q.unit ∧ p = { q with unit := p.unit }

/-- Results of a loop of reads that differ at most in register bits above the count. -/
def FillResult.SameButGarbage (p q : FillResult) : Prop := p.unit.SameContent q.unit ∧ p = { q with unit := p.unit }

/-- Results of a write that differ at most in register bits above the count. -/
def WriteResult.SameButGarbage (p q : WriteResult) : Prop := p.unit.SameContent q.unit ∧ p = { q with unit := p.unit }

/-! ### The operations -/

theorem ReaderUnit.SameContent.refl (u : ReaderUnit) : u.SameContent u := ⟨Eq.refl _, Eq.refl _, Eq.refl _⟩

theorem WriterUnit.SameContent.refl (u : WriterUnit) : u.SameContent u := ⟨Eq.refl _, Eq.refl _, Eq.refl _⟩

/-- A read from the register leaves the same content in both units. -/
theorem readBuffered_alike {count : Nat} {u v : ReaderUnit} (h : u.SameContent v) (hvalid : count ≤ u.valid.toNat)
    (src : Source) : (readBuffered count u src).SameButGarbage (readBuffered count v src) := by
  obtain ⟨horder, hcount, hcontent⟩ := h
  have hrest : readerContent (readBuffered count u src).unit = readerContent (readBuffered count v src).unit := by
    rw [readerContent, readBuffered_valid src hvalid, readerContent, readBuffered_valid src (hcount ▸ hvalid),
      ← low_content _ (Nat.sub_le _ _), ← low_content _ (Nat.sub_le _ _), ← hcount]
    rw [readerContent, readerContent, ← hcount] at hcontent
    exact congrArg (low · _) hcontent
  refine ⟨⟨horder, by simp [readBuffered, hcount], hrest⟩, ?_⟩
  simp [readBuffered, hcount, hcontent]

/-- A bit read ends alike from units with the same content. -/
theorem readBits_alike (count : Nat) {u v : ReaderUnit} (h : u.SameContent v) (src : Source) :
    EndsAlike ReadResult.SameButGarbage (readBits count u src) (readBits count v src) := by
  obtain hcount | hcount := Nat.lt_or_ge 64 count
  · rw [readBits_rejected u src hcount, readBits_rejected v src hcount]
    exact .next ⟨h, rfl⟩
  obtain hvalid | hvalid := Nat.lt_or_ge u.valid.toNat count
  · rw [readBits_refill src hcount hvalid, readBits_refill src hcount (h.2.1 ▸ hvalid)]
    refine (EndsAlike.refl (srcRead src)).andThen ?_
    rintro ⟨reply, src'⟩ _ rfl
    cases reply with
    | error e => exact .next ⟨h, rfl⟩
    | data bytes =>
      obtain ⟨horder, hcount, hcontent⟩ := h
      have hsame : refill count u (.data bytes, src') = refill count v (.data bytes, src') := by
        simp only [refill, horder, hcount, hcontent]
      rw [hsame]
      exact .next ⟨.refl _, rfl⟩
  · rw [readBits_buffered src hcount hvalid, readBits_buffered src hcount (h.2.1 ▸ hvalid)]
    exact .next (readBuffered_alike h hvalid src)

/-- A loop of reads ends alike from units with the same content. -/
theorem readChunks_alike (cs : List Nat) (i : Nat) (buf : List Byte) {u v : ReaderUnit} (h : u.SameContent v)
    (src : Source) : EndsAlike FillResult.SameButGarbage (readChunks cs i buf u src) (readChunks cs i buf v src) := by
  induction cs generalizing i buf u v src with
  | nil => exact .next ⟨h, rfl⟩
  | cons c cs ih =>
    refine (readBits_alike (8 * c) h src).andThen ?_
    rintro ⟨status, n, value, err, unit, source⟩ q ⟨hunit, hrest⟩
    cases hrest
    cases hq : q.status with
    | ok => exact ih _ _ hunit _
    | endOfStream | transportError | countRangeError | illegalCommand => exact .next ⟨hunit, rfl⟩

/-- A settled write leaves related units when both the unit before and the unit after are. -/
theorem settleWrite_alike {u v u' v' : WriterUnit} (h : u.SameContent v) (h' : u'.SameContent v') (n : Nat)
    (answer : SinkReply × Sink) : (settleWrite u u' n answer).SameButGarbage (settleWrite v v' n answer) := by
  obtain ⟨reply, snk⟩ := answer
  cases reply with
  | ok => exact ⟨h', rfl⟩
  | error => exact ⟨h, rfl⟩

/-- A bit write ends alike from units with the same content. -/
theorem writeBits_alike (count value : Nat) {u v : WriterUnit} (h : u.SameContent v) (snk : Sink) :
    EndsAlike WriteResult.SameButGarbage (writeBits count value u snk) (writeBits count value v snk) := by
  obtain ⟨horder, hvalid, hcontent⟩ := id h
  have hroom : writerRoom u = writerRoom v := by rw [writerRoom, writerRoom, hvalid]
  have happended : appended count (low value count) u = appended count (low value count) v := by
    simp only [appended, horder, hvalid, hcontent]
  have hrefilled : refilled count (low value count) u = refilled count (low value count) v := by
    simp only [refilled, horder, hroom]
  have hword : fullWord count (low value count) u = fullWord count (low value count) v := by
    simp only [fullWord, hcontent, hroom]
  simp only [writeBits, happended, hrefilled, hword, hroom, horder]
  split
  · exact .next ⟨h, rfl⟩
  split
  · exact .next ⟨.refl _, rfl⟩
  · refine (EndsAlike.refl _).andThen ?_
    rintro answer _ rfl
    exact .next (settleWrite_alike h (.refl _) count answer)

/-- A loop of writes ends alike from units with the same content. -/
theorem writeChunks_alike (cs : List Nat) (i : Nat) (buf : List Byte) {u v : WriterUnit} (h : u.SameContent v)
    (snk : Sink) : EndsAlike WriteResult.SameButGarbage (writeChunks cs i buf u snk) (writeChunks cs i buf v snk) := by
  induction cs generalizing i u v snk with
  | nil => exact .next ⟨h, rfl⟩
  | cons c cs ih =>
    refine (writeBits_alike (8 * c) (chunkValue buf i c) h snk).andThen ?_
    rintro ⟨status, n, err, unit, sink⟩ q ⟨hunit, hrest⟩
    cases hrest
    simp only
    split
    · exact .next ⟨hunit, rfl⟩
    · exact ih _ hunit _

/-- A flush ends alike from units with the same content. -/
theorem flushBits_alike {u v : WriterUnit} (h : u.SameContent v) (snk : Sink) :
    EndsAlike WriteResult.SameButGarbage (flushBits u snk) (flushBits v snk) := by
  obtain ⟨horder, hvalid, hcontent⟩ := id h
  have hbytes : flushBytes u = flushBytes v := by simp only [flushBytes, horder, hvalid, hcontent]
  have hempty : ({ u with valid := 0#6 } : WriterUnit).SameContent { v with valid := 0#6 } :=
    ⟨horder, rfl, by simp [writerContent, content, low, Nat.mod_one]⟩
  simp only [flushBits, hbytes, hvalid]
  split
  · exact .next ⟨h, rfl⟩
  · refine (EndsAlike.refl _).andThen ?_
    rintro answer _ rfl
    exact .next (settleWrite_alike h hempty 0 answer)

/-! ### The commands -/

/-- Machines stay alike when a Reader command ends alike on both. -/
theorem State.SameButGarbage.endRead {s s' : State} (h : s.SameButGarbage s') {u v : ReaderUnit} (hu : u.SameContent v)
    (src : Source) (r : Response) : (s.endRead u src r).SameButGarbage (s'.endRead v src r) := by
  obtain ⟨-, hwriter, hrest⟩ := h
  exact ⟨hu, hwriter, by rw [hrest]; rfl⟩

/-- Machines stay alike when a Writer command ends alike on both. -/
theorem State.SameButGarbage.endWrite {s s' : State} (h : s.SameButGarbage s') {u v : WriterUnit} (hu : u.SameContent v)
    (snk : Sink) (r : Response) : (s.endWrite u snk r).SameButGarbage (s'.endWrite v snk r) := by
  obtain ⟨hreader, -, hrest⟩ := h
  exact ⟨hreader, hu, by rw [hrest]; rfl⟩

/-- Every command ends alike on machines that differ only in the register bits above the counts (10_state.md R25). -/
theorem exec_alike (i : Instr) {s s' : State} (h : s.SameButGarbage s') :
    EndsAlike State.SameButGarbage (exec i s) (exec i s') := by
  obtain ⟨hreader, hwriter, hrest⟩ := id h
  have hsource : s.source = s'.source := by rw [hrest]
  have hsink : s.sink = s'.sink := by rw [hrest]
  cases i with
  | rdbits count d =>
    rw [exec, exec, execRdbits, execRdbits, hsource]
    refine (readBits_alike _ hreader _).andThen ?_
    rintro ⟨status, n, value, err, unit, source⟩ q ⟨hunit, hq⟩
    cases hq
    exact .next (h.endRead hunit _ _)
  | rdbytes len buf =>
    rw [exec, exec, execRdbytes, execRdbytes, hsource]
    split
    · refine (readChunks_alike _ _ _ hreader _).andThen ?_
      rintro ⟨status, n, err, buf, unit, source⟩ q ⟨hunit, hq⟩
      cases hq
      exact .next (h.endRead hunit _ _)
    · exact .refused _
  | wrbits count value =>
    rw [exec, exec, execWrbits, execWrbits, hsink]
    refine (writeBits_alike _ _ hwriter _).andThen ?_
    rintro ⟨status, n, err, unit, sink⟩ q ⟨hunit, hq⟩
    cases hq
    exact .next (h.endWrite hunit _ _)
  | wrbytes len buf =>
    rw [exec, exec, execWrbytes, execWrbytes, hsink]
    split
    · refine (writeChunks_alike _ _ _ hwriter _).andThen ?_
      rintro ⟨status, n, err, unit, sink⟩ q ⟨hunit, hq⟩
      cases hq
      exact .next (h.endWrite hunit _ _)
    · exact .refused _
  | padding =>
    rw [exec, exec, execPadding, execPadding, hsink, hwriter.2.1]
    exact .next (h.endWrite hwriter _ _)
  | flush =>
    rw [exec, exec, execFlush, execFlush, hsink]
    refine (flushBits_alike hwriter _).andThen ?_
    rintro ⟨status, n, err, unit, sink⟩ q ⟨hunit, hq⟩
    cases hq
    exact .next (h.endWrite hunit _ _)

/-- Settles O44: `exec_alike`, for each of the three ways to end. -/
theorem garbageBitsCannotBeSeen : Obligations.GarbageBitsCannotBeSeen := by
  intro s s' i hsame
  have halike := exec_alike i hsame
  exact ⟨fun t h => (h ▸ halike).of_next, fun f h => (h ▸ halike).of_fault, fun r h => (h ▸ halike).of_refused⟩

end Sys2Proof.Machine
end

section
/-!
SUPPORT. What one step of the machine can do and what it keeps (10_state.md R22, R26, R35, R41 to R44).
-/

namespace Sys2Proof.Machine

/-! ### What a step can do -/

/-- What a port decodes is an instruction of its unit (30_encoding.md R76, R77). -/
theorem decode_port {p : PortId} {c : Command} {i : Instr} (h : decode p c = .ok i) : i.port = p := by
  cases p with
  | reader =>
    simp only [decode, decodeReader] at h
    split_ifs at h <;> cases h <;> rfl
  | writer =>
    simp only [decode, decodeWriter] at h
    split_ifs at h <;> cases h <;> rfl

/-- A completed step has no turn left, or takes the next one. -/
theorem step_eq_next {s t : State} (h : step s = .next t) :
    (s.agenda = [] ∧ t = s) ∨ ∃ turn ts, s.agenda = turn :: ts ∧ takeTurn turn { s with agenda := ts } = .next t := by
  cases hturn : s.agenda with
  | nil =>
    rw [step, nextTurn, hturn] at h
    cases h
    exact .inl ⟨rfl, rfl⟩
  | cons turn ts =>
    rw [step_of_agenda hturn] at h
    exact .inr ⟨turn, ts, rfl, h⟩

/-- A unit's completed turn writes its port alone, or executes a command of its unit. -/
theorem serve_eq_setPort_or_exec {p : PortId} {s t : State} (h : serve p s = .next t) :
    (∃ port, t = s.setPort p port) ∨ ∃ port i, i.port = p ∧ exec i (s.setPort p port) = .next t := by
  obtain ⟨-, rfl⟩ | ⟨c, port, -, ⟨e, -, rfl⟩ | ⟨i, hi, hexec | ⟨rfl, -⟩⟩⟩ := serve_eq_next h
  · exact .inl ⟨t.port p, by cases p <;> rfl⟩
  · exact .inl ⟨_, State.setPort_setPort _ _ _ _⟩
  · exact .inr ⟨port, i, decode_port hi, hexec⟩
  · exact .inl ⟨port, rfl⟩

/-- A unit's turn changes no order and no configuration input (10_state.md R26, R37). -/
theorem serve_keeps_orders {p : PortId} {s t : State} (h : serve p s = .next t) :
    t.reader.order = s.reader.order ∧ t.writer.order = s.writer.order ∧ t.cfgOrderR = s.cfgOrderR ∧
      t.cfgOrderW = s.cfgOrderW := by
  obtain ⟨port, rfl⟩ | ⟨port, i, rfl, hexec⟩ := serve_eq_setPort_or_exec h
  · simp
  · cases hport : i.port with
    | reader =>
      obtain ⟨u, src, r, rfl, horder, -⟩ := exec_reader_eq_next hport hexec
      simp [horder]
    | writer =>
      obtain ⟨u, snk, r, rfl, horder, -⟩ := exec_writer_eq_next hport hexec
      simp [horder]

/-! ### Invariants of one unit and its transport -/

/-- What every bit read, every reset and every attached source keeps of the Reader and its source. -/
structure ReaderInvariant (P : ReaderUnit → Source → Prop) : Prop where
  read {count : Nat} {u : ReaderUnit} {src : Source} {q : ReadResult} :
    readBits count u src = .next q → P u src → P q.unit q.source
  reset {u : ReaderUnit} {src : Source} (o : BitOrder) (c : Option Command) : P u src → P ⟨o, 0#64, 0#7⟩ (src.afterReset c)
  attach {u : ReaderUnit} {src : Source} (script : List SourceAnswer) (rest : SourceRest) :
    P u src → P u ⟨script, rest, src.log⟩

/-- What every bit write, every flush, every reset and every attached sink keeps of the Writer and its sink. -/
structure WriterInvariant (Q : WriterUnit → Sink → Prop) : Prop where
  write {count value : Nat} {u : WriterUnit} {snk : Sink} {q : WriteResult} :
    writeBits count value u snk = .next q → Q u snk → Q q.unit q.sink
  flush {u : WriterUnit} {snk : Sink} {q : WriteResult} : flushBits u snk = .next q → Q u snk → Q q.unit q.sink
  reset {u : WriterUnit} {snk : Sink} (o : BitOrder) (c : Option Command) : Q u snk → Q ⟨o, 0#64, 0#6⟩ (snk.afterReset c)
  attach {u : WriterUnit} {snk : Sink} (script : List SinkAnswer) (rest : SinkRest) :
    Q u snk → Q u ⟨script, rest, snk.log⟩

/-- A command keeps an invariant of the Reader. -/
theorem ReaderInvariant.exec {P : ReaderUnit → Source → Prop} (hP : ReaderInvariant P) {i : Instr} {s t : State}
    (h : exec i s = .next t) (hs : P s.reader s.source) : P t.reader t.source := by
  cases i with
  | rdbits count d =>
    obtain ⟨q, hq, rfl⟩ := execRdbits_eq_next h
    exact hP.read hq hs
  | rdbytes len buf =>
    obtain ⟨-, q, hq, rfl⟩ := execRdbytes_eq_next h
    exact readChunks_keeps hP.read hq hs
  | wrbits | wrbytes | padding | flush =>
    obtain ⟨u, snk, r, rfl, -⟩ := exec_writer_eq_next rfl h
    exact hs

/-- A command keeps an invariant of the Writer. -/
theorem WriterInvariant.exec {Q : WriterUnit → Sink → Prop} (hQ : WriterInvariant Q) {i : Instr} {s t : State}
    (h : exec i s = .next t) (hs : Q s.writer s.sink) : Q t.writer t.sink := by
  cases i with
  | rdbits | rdbytes =>
    obtain ⟨u, src, r, rfl, -⟩ := exec_reader_eq_next rfl h
    exact hs
  | wrbits count value =>
    obtain ⟨q, hq, rfl⟩ := execWrbits_eq_next h
    exact hQ.write hq hs
  | wrbytes len buf =>
    obtain ⟨-, q, hq, rfl⟩ := execWrbytes_eq_next h
    exact writeChunks_keeps hQ.write hq hs
  | padding => cases h; exact hs
  | flush =>
    obtain ⟨q, hq, rfl⟩ := execFlush_eq_next h
    exact hQ.flush hq hs

/-- A step keeps an invariant of the Reader. -/
theorem ReaderInvariant.step {P : ReaderUnit → Source → Prop} (hP : ReaderInvariant P) {s t : State}
    (h : step s = .next t) (hs : P s.reader s.source) : P t.reader t.source := by
  obtain ⟨-, rfl⟩ | ⟨turn, ts, -, hturn⟩ := step_eq_next h
  · exact hs
  cases turn with
  | serve p =>
    obtain ⟨port, rfl⟩ | ⟨port, i, -, hexec⟩ := serve_eq_setPort_or_exec hturn
    · simpa using hs
    · exact hP.exec hexec (by simpa using hs)
  | reset p =>
    cases hturn
    cases p with
    | reader => exact hP.reset _ _ hs
    | writer => exact hs
  | configure p o =>
    cases hturn
    simpa using hs
  | attachSource script rest => cases hturn; exact hP.attach script rest hs
  | attachSink => cases hturn; exact hs

/-- A step keeps an invariant of the Writer. -/
theorem WriterInvariant.step {Q : WriterUnit → Sink → Prop} (hQ : WriterInvariant Q) {s t : State}
    (h : step s = .next t) (hs : Q s.writer s.sink) : Q t.writer t.sink := by
  obtain ⟨-, rfl⟩ | ⟨turn, ts, -, hturn⟩ := step_eq_next h
  · exact hs
  cases turn with
  | serve p =>
    obtain ⟨port, rfl⟩ | ⟨port, i, -, hexec⟩ := serve_eq_setPort_or_exec hturn
    · simpa using hs
    · exact hQ.exec hexec (by simpa using hs)
  | reset p =>
    cases hturn
    cases p with
    | reader => exact hs
    | writer => exact hQ.reset _ _ hs
  | configure p o =>
    cases hturn
    simpa using hs
  | attachSource => cases hturn; exact hs
  | attachSink script rest => cases hturn; exact hQ.attach script rest hs

/-- The Reader's count stays below 64: a refill brings at most 64 bits, and the read takes one or more of them
(10_state.md R22). -/
theorem readerBelow64_invariant : ReaderInvariant fun u _ => u.valid.toNat ≤ 63 where
  read h hu := by
    cases readBits_outcome h with
    | rejected | failed => exact hu
    | buffered _ hvalid =>
      rw [readBuffered_valid _ hvalid]
      omega
    | short => exact Nat.zero_le 63
    | refilled =>
      rw [ofNat7_toNat (by omega)]
      omega
  reset _ _ _ := Nat.zero_le 63
  attach _ _ hu := hu

/-- The source's record holds replies that fit (10_state.md R41). -/
theorem sourceTraffic_invariant : ReaderInvariant fun _ src => ∀ r ∈ src.log, r.fits = true where
  read h hlog := by
    cases readBits_outcome h with
    | rejected | buffered => exact hlog
    | failed => simpa [or_imp, forall_and, SourceReply.fits] using hlog
    | short _ bytes _ hshort =>
      have hlen : bytes.length ≤ 8 := by omega
      simpa [or_imp, forall_and, SourceReply.fits, hlen] using hlog
    | refilled _ _ bytes _ hlen => simpa [or_imp, forall_and, SourceReply.fits, hlen] using hlog
  reset _ _ hlog := by simpa using hlog
  attach _ _ hlog := hlog

/-- An answered write of 1 to 8 bytes fits (10_state.md R43, R44). -/
theorem fits_of_snkWrite {snk snk' : Sink} {bytes : List Byte} {reply : SinkReply}
    (h : snkWrite bytes snk = .next (reply, snk')) (hpos : 1 ≤ bytes.length) (hle : bytes.length ≤ 8) :
    SinkWrite.fits ⟨bytes, reply⟩ = true := by
  obtain ⟨-, ⟨rfl, -⟩ | ⟨acc, e, rfl, hacc, -⟩⟩ := snkWrite_eq_next h
  · simp [SinkWrite.fits, hpos, hle]
  · simp [SinkWrite.fits, hpos, hle, hacc]

/-- The sink's record holds writes that fit (10_state.md R43, R44). -/
theorem sinkTraffic_invariant : WriterInvariant fun _ snk => ∀ w ∈ snk.log, w.fits = true where
  write h hlog := by
    obtain ⟨-, rfl⟩ | ⟨-, -, rfl⟩ | ⟨-, -, reply, hwrite, rfl⟩ := writeBits_eq_next h
    · exact hlog
    · exact hlog
    · have hfits := fits_of_snkWrite hwrite (by simp) (by simp)
      simpa [or_imp, forall_and, hfits] using hlog
  flush {u} _ _ h hlog := by
    obtain ⟨-, rfl⟩ | ⟨hvalid, reply, hwrite, rfl⟩ := flushBits_eq_next h
    · exact hlog
    · have hlt := u.valid.isLt
      have hfits := fits_of_snkWrite hwrite (by rw [flushBytes_length]; omega) (by rw [flushBytes_length]; omega)
      simpa [or_imp, forall_and, hfits] using hlog
  reset _ _ hlog := by simpa using hlog
  attach _ _ hlog := hlog

/-! ### A unit's turn and the other unit -/

/-- The outcome of the Reader's turn is fixed by the Reader's side: every state with this side goes on from one and the
same outcome `o`, which writes that side alone (10_state.md R35). -/
theorem serve_reader_local (u : ReaderUnit) (src : Source) (port : Port) :
    ∃ o : Host.Outcome (ReaderUnit × Source × Port) Fault Refusal,
      ∀ s : State, s.reader = u → s.source = src → s.readerPort = port →
        serve .reader s =
          andThen o fun (u', src', port') => .next { s with reader := u', source := src', readerPort := port' } := by
  cases haccept : port.accept with
  | none =>
    refine ⟨.next (u, src, port), ?_⟩
    rintro s rfl rfl rfl
    simp [serve, haccept]
  | some taken =>
    obtain ⟨c, port'⟩ := taken
    cases hdecode : decode .reader c with
    | error e =>
      refine ⟨.next (u, src, port'.respond (respond .illegalCommand 0 0)), ?_⟩
      rintro s rfl rfl rfl
      rw [serve_of_accept (p := .reader) haccept, runCommand, hdecode]
      rfl
    | ok i =>
      obtain ⟨o, ho⟩ := exec_reader_local (decode_port hdecode) u src
      have hserve : ∀ s : State, s.reader = u → s.source = src → s.readerPort = port →
          serve .reader s = waitOrDone (s.setPort .reader port') (andThen o fun (u', src', r) =>
            .next ((s.setPort .reader port').endRead u' src' r)) := by
        rintro s rfl rfl rfl
        rw [serve_of_accept (p := .reader) haccept, runCommand_of_decode hdecode, ho (s.setPort _ port') rfl rfl]
      cases o with
      | next a =>
        obtain ⟨u', src', r⟩ := a
        exact ⟨.next (u', src', port'.respond r), hserve⟩
      | fault f =>
        refine ⟨.next (u, src, port'), ?_⟩
        rintro s rfl rfl rfl
        rw [hserve s rfl rfl rfl, andThen_fault, waitOrDone_fault]
        rfl
      | refused r => exact ⟨.refused r, hserve⟩

/-- The outcome of the Writer's turn is fixed by the Writer's side: every state with this side goes on from one and the
same outcome `o`, which writes that side alone (10_state.md R35). -/
theorem serve_writer_local (u : WriterUnit) (snk : Sink) (port : Port) :
    ∃ o : Host.Outcome (WriterUnit × Sink × Port) Fault Refusal,
      ∀ s : State, s.writer = u → s.sink = snk → s.writerPort = port →
        serve .writer s =
          andThen o fun (u', snk', port') => .next { s with writer := u', sink := snk', writerPort := port' } := by
  cases haccept : port.accept with
  | none =>
    refine ⟨.next (u, snk, port), ?_⟩
    rintro s rfl rfl rfl
    simp [serve, haccept]
  | some taken =>
    obtain ⟨c, port'⟩ := taken
    cases hdecode : decode .writer c with
    | error e =>
      refine ⟨.next (u, snk, port'.respond (respond .illegalCommand 0 0)), ?_⟩
      rintro s rfl rfl rfl
      rw [serve_of_accept (p := .writer) haccept, runCommand, hdecode]
      rfl
    | ok i =>
      obtain ⟨o, ho⟩ := exec_writer_local (decode_port hdecode) u snk
      have hserve : ∀ s : State, s.writer = u → s.sink = snk → s.writerPort = port →
          serve .writer s = waitOrDone (s.setPort .writer port') (andThen o fun (u', snk', r) =>
            .next ((s.setPort .writer port').endWrite u' snk' r)) := by
        rintro s rfl rfl rfl
        rw [serve_of_accept (p := .writer) haccept, runCommand_of_decode hdecode, ho (s.setPort _ port') rfl rfl]
      cases o with
      | next a =>
        obtain ⟨u', snk', r⟩ := a
        exact ⟨.next (u', snk', port'.respond r), hserve⟩
      | fault f =>
        refine ⟨.next (u, snk, port'), ?_⟩
        rintro s rfl rfl rfl
        rw [hserve s rfl rfl rfl, andThen_fault, waitOrDone_fault]
        rfl
      | refused r => exact ⟨.refused r, hserve⟩

/-! ### The obligations on steps -/

/-- Settles O56: an invariant of the Reader. -/
theorem stepKeepsReaderBelow64 : Obligations.StepKeepsReaderBelow64 :=
  fun _ _ hs h => readerBelow64_invariant.step h hs

/-- Settles O57: an invariant of the Reader for the source, and one of the Writer for the sink. -/
theorem stepKeepsTrafficForm : Obligations.StepKeepsTrafficForm :=
  fun _ _ ⟨hsource, hsink⟩ h => ⟨sourceTraffic_invariant.step h hsource, sinkTraffic_invariant.step h hsink⟩

/-- Settles O51: the four turns by definition; no other turn writes an input. -/
theorem configureAndAttachTurns : Obligations.ConfigureAndAttachTurns := by
  intro s ts
  refine ⟨fun o h => step_of_agenda h, fun o h => step_of_agenda h, fun script rest h => step_of_agenda h,
    fun script rest h => step_of_agenda h, fun t h => ?_⟩
  obtain ⟨-, rfl⟩ | ⟨turn, ts, hagenda, hturn⟩ := step_eq_next h
  · exact ⟨fun _ => rfl, fun _ => rfl⟩
  rw [hagenda, List.head?_cons]
  cases turn with
  | serve p =>
    obtain ⟨-, -, hr, hw⟩ := serve_keeps_orders hturn
    exact ⟨fun _ => hr, fun _ => hw⟩
  | configure p o =>
    cases hturn
    cases p with
    | reader => exact ⟨fun hne => absurd rfl (hne o), fun _ => rfl⟩
    | writer => exact ⟨fun _ => rfl, fun hne => absurd rfl (hne o)⟩
  | reset p => cases hturn; cases p <;> exact ⟨fun _ => rfl, fun _ => rfl⟩
  | attachSource | attachSink => cases hturn; exact ⟨fun _ => rfl, fun _ => rfl⟩

/-- Settles O55: a reset samples the unit's input, and no other turn writes an order. -/
theorem orderChangesOnlyByReset : Obligations.OrderChangesOnlyByReset := by
  intro s t h
  obtain ⟨hagenda, rfl⟩ | ⟨turn, ts, hagenda, hturn⟩ := step_eq_next h
  · simp [hagenda]
  rw [hagenda, List.head?_cons]
  cases turn with
  | serve p =>
    obtain ⟨hr, hw, -, -⟩ := serve_keeps_orders hturn
    exact ⟨fun _ => hr, nofun, fun _ => hw, nofun⟩
  | reset p =>
    cases hturn
    cases p with
    | reader => exact ⟨fun hne => absurd rfl hne, fun _ => rfl, fun _ => rfl, nofun⟩
    | writer => exact ⟨fun _ => rfl, nofun, fun hne => absurd rfl hne, fun _ => rfl⟩
  | configure p o => cases hturn; cases p <;> exact ⟨fun _ => rfl, nofun, fun _ => rfl, nofun⟩
  | attachSource | attachSink => cases hturn; exact ⟨fun _ => rfl, nofun, fun _ => rfl, nofun⟩

/-- Settles O59: each turn writes its own side alone, from an outcome that its own side fixes. -/
theorem turnsOfTheUnitsCommute : Obligations.TurnsOfTheUnitsCommute := by
  intro s a b ha hb
  obtain ⟨o, ho⟩ := serve_reader_local s.reader s.source s.readerPort
  obtain ⟨o', ho'⟩ := serve_writer_local s.writer s.sink s.writerPort
  obtain ⟨⟨u, src, port⟩, rfl, hreader⟩ := andThen_eq_next.mp ((ho s rfl rfl rfl).symm.trans ha)
  obtain ⟨⟨v, snk, port'⟩, rfl, hwriter⟩ := andThen_eq_next.mp ((ho' s rfl rfl rfl).symm.trans hb)
  cases hreader
  cases hwriter
  exact ⟨_, ho' _ rfl rfl rfl, ho _ rfl rfl rfl⟩

end Sys2Proof.Machine
end

section
/-!
SUPPORT. Bit order and data change no count, no status and no request (20_memory.md R53): a relation between two outcomes,
kept by each operation from units with the same counts, whatever else they hold.
-/

namespace Sys2Proof.Machine

/-! ### Results with the same counts -/

/-- Results of a bit read that agree but in the value, the token and the Reader's order and register. -/
structure ReadResult.SameCounts (p q : ReadResult) : Prop where
  status : p.status = q.status
  n : p.n = q.n
  valid : p.unit.valid = q.unit.valid
  source : p.source = q.source

/-- Results of a loop of reads that agree but in the buffer, the token and the Reader's order and register. -/
structure FillResult.SameCounts (p q : FillResult) : Prop where
  status : p.status = q.status
  n : p.n = q.n
  valid : p.unit.valid = q.unit.valid
  source : p.source = q.source

/-- Results of a write that agree but in the token, the Writer's order and register, and the bytes emitted. -/
structure WriteResult.SameCounts (p q : WriteResult) : Prop where
  status : p.status = q.status
  n : p.n = q.n
  valid : p.unit.valid = q.unit.valid
  sink : p.sink.SameCounts q.sink

/-- The same reply of two sinks that agree but in the bytes of their records. -/
abbrev sameReply (a b : SinkReply × Sink) : Prop := a.1 = b.1 ∧ a.2.SameCounts b.2

/-! ### The reads -/

/-- A refill's counts depend on the order and the register of no Reader (40_bitreader.md R105 to R109). -/
theorem refill_sameCounts (count : Nat) {u v : ReaderUnit} (h : u.valid = v.valid) (answer : SourceReply × Source) :
    (refill count u answer).SameCounts (refill count v answer) := by
  obtain ⟨reply, src⟩ := answer
  cases reply with
  | error e => exact ⟨rfl, rfl, h, rfl⟩
  | data bytes =>
    simp only [refill, h]
    split <;> exact ⟨rfl, rfl, rfl, rfl⟩

/-- A bit read ends with the same counts from Readers with the same count. -/
theorem readBits_sameCounts (count : Nat) {u v : ReaderUnit} (h : u.valid = v.valid) (src : Source) :
    EndsAlike ReadResult.SameCounts (readBits count u src) (readBits count v src) := by
  obtain hcount | hcount := Nat.lt_or_ge 64 count
  · rw [readBits_rejected u src hcount, readBits_rejected v src hcount]
    exact .next ⟨rfl, rfl, h, rfl⟩
  obtain hvalid | hvalid := Nat.lt_or_ge u.valid.toNat count
  · rw [readBits_refill src hcount hvalid, readBits_refill src hcount (h ▸ hvalid)]
    refine (EndsAlike.refl (srcRead src)).andThen ?_
    rintro answer _ rfl
    exact .next (refill_sameCounts count h answer)
  · rw [readBits_buffered src hcount hvalid, readBits_buffered src hcount (h ▸ hvalid)]
    exact .next ⟨rfl, rfl, by simp [readBuffered, h], rfl⟩

/-- A loop of reads ends with the same counts from Readers with the same count, whatever the buffers hold. -/
theorem readChunks_sameCounts (cs : List Nat) (i : Nat) (buf buf' : List Byte) {u v : ReaderUnit}
    (h : u.valid = v.valid) (src : Source) :
    EndsAlike FillResult.SameCounts (readChunks cs i buf u src) (readChunks cs i buf' v src) := by
  induction cs generalizing i buf buf' u v src with
  | nil => exact .next ⟨rfl, rfl, h, rfl⟩
  | cons c cs ih =>
    refine (readBits_sameCounts (8 * c) h src).andThen ?_
    rintro p q ⟨hstatus, hn, hvalid, hsource⟩
    rw [hstatus, hn, hsource]
    cases q.status with
    | ok => exact ih _ _ _ hvalid _
    | endOfStream | transportError | countRangeError | illegalCommand => exact .next ⟨rfl, rfl, hvalid, rfl⟩

/-! ### The writes -/

/-- What a sink answers depends on the length of a write, not on its bytes. -/
theorem Sink.SameCounts.answer {a b : Sink} (h : a.SameCounts b) (m : Nat) : a.answer m = b.answer m := by
  obtain ⟨hscript, hrest, hlog⟩ := h
  have hlength : a.log.length = b.log.length := by simpa using congrArg List.length hlog
  simp only [Sink.answer, hscript, hrest, hlength]

/-- Sinks stay alike when they give one reply to writes of one length. -/
theorem Sink.SameCounts.answered {a b : Sink} (h : a.SameCounts b) {bytes bytes' : List Byte}
    (hlen : bytes.length = bytes'.length) (reply : SinkReply) :
    (a.answered bytes reply).SameCounts (b.answered bytes' reply) := by
  obtain ⟨hscript, hrest, hlog⟩ := h
  exact ⟨congrArg List.tail hscript, hrest, by simp [hlog, hlen]⟩

/-- Writes of one length end alike on sinks that are alike. -/
theorem snkWrite_sameCounts {a b : Sink} (h : a.SameCounts b) {bytes bytes' : List Byte}
    (hlen : bytes.length = bytes'.length) : EndsAlike sameReply (snkWrite bytes a) (snkWrite bytes' b) := by
  rw [snkWrite, snkWrite, ← h.answer, ← hlen]
  split
  · exact .fault _
  · exact .next ⟨rfl, h.answered hlen _⟩
  · split
    · exact .next ⟨rfl, h.answered hlen _⟩
    · exact .refused _
  · exact .refused _

/-- A settled write has the same counts when the units before have, and the units after. -/
theorem settleWrite_sameCounts {u v u' v' : WriterUnit} (h : u.valid = v.valid) (h' : u'.valid = v'.valid) (n : Nat)
    {a b : SinkReply × Sink} (hab : sameReply a b) :
    (settleWrite u u' n a).SameCounts (settleWrite v v' n b) := by
  obtain ⟨reply, a⟩ := a
  obtain ⟨_, b⟩ := b
  obtain ⟨rfl, hsink⟩ := hab
  cases reply with
  | ok => exact ⟨rfl, rfl, h', hsink⟩
  | error => exact ⟨rfl, rfl, h, hsink⟩

/-- A bit write ends with the same counts from Writers with the same count, whatever the values. -/
theorem writeBits_sameCounts (count value value' : Nat) {u v : WriterUnit} (h : u.valid = v.valid) {a b : Sink}
    (hsink : a.SameCounts b) :
    EndsAlike WriteResult.SameCounts (writeBits count value u a) (writeBits count value' v b) := by
  have hroom : writerRoom u = writerRoom v := by rw [writerRoom, writerRoom, h]
  obtain hcount | hcount := Nat.lt_or_ge 64 count
  · rw [writeBits_rejected _ _ _ hcount, writeBits_rejected _ _ _ hcount]
    exact .next ⟨rfl, rfl, h, hsink⟩
  obtain hfill | hfill := Nat.lt_or_ge count (writerRoom u)
  · rw [writeBits_buffered _ _ hfill, writeBits_buffered _ _ (hroom ▸ hfill)]
    exact .next ⟨rfl, rfl, by simp [appended, h], hsink⟩
  · rw [writeBits_fill _ _ hcount hfill, writeBits_fill _ _ hcount (hroom ▸ hfill)]
    refine (snkWrite_sameCounts hsink (by simp)).andThen fun p q hpq => ?_
    exact .next (settleWrite_sameCounts h (by simp [refilled, hroom]) count hpq)

/-- A loop of writes ends with the same counts from Writers with the same count, whatever the buffers hold. -/
theorem writeChunks_sameCounts (cs : List Nat) (i : Nat) (buf buf' : List Byte) {u v : WriterUnit}
    (h : u.valid = v.valid) {a b : Sink} (hsink : a.SameCounts b) :
    EndsAlike WriteResult.SameCounts (writeChunks cs i buf u a) (writeChunks cs i buf' v b) := by
  induction cs generalizing i u v a b with
  | nil => exact .next ⟨rfl, rfl, h, hsink⟩
  | cons c cs ih =>
    refine (writeBits_sameCounts (8 * c) _ _ h hsink).andThen ?_
    rintro p q ⟨hstatus, -, hvalid, hsink⟩
    rw [hstatus]
    split
    · exact .next ⟨rfl, rfl, hvalid, hsink⟩
    · exact ih _ hvalid hsink

/-- A flush ends with the same counts from Writers with the same count. -/
theorem flushBits_sameCounts {u v : WriterUnit} (h : u.valid = v.valid) {a b : Sink} (hsink : a.SameCounts b) :
    EndsAlike WriteResult.SameCounts (flushBits u a) (flushBits v b) := by
  rw [flushBits, flushBits, h]
  split
  · exact .next ⟨rfl, rfl, h, hsink⟩
  · have hlen : (flushBytes u).length = (flushBytes v).length := by rw [flushBytes_length, flushBytes_length, h]
    exact (snkWrite_sameCounts hsink hlen).andThen fun p q hpq => .next (settleWrite_sameCounts h (Eq.refl 0#6) 0 hpq)

/-! ### The commands -/

/-- Ports stay alike when they give responses with the same status and count. -/
theorem Port.SameCounts.respond {p q : Port} (h : p.SameCounts q) {r r' : Response} (hstatus : r.status = r'.status)
    (hn : r.n = r'.n) : (p.respond r).SameCounts (q.respond r') := by
  obtain ⟨hpending, -, hresponses⟩ := h
  exact ⟨hpending, rfl, by simpa [sameCounts, hstatus, hn] using hresponses⟩

/-- Machines stay alike when a Reader command ends alike on both. -/
theorem State.SameCounts.endRead {s s' : State} (h : s.SameCounts s') {u v : ReaderUnit} (hvalid : u.valid = v.valid)
    {src src' : Source} (hsource : src = src') {r r' : Response} (hstatus : r.status = r'.status) (hn : r.n = r'.n) :
    (s.endRead u src r).SameCounts (s'.endRead v src' r') := by
  obtain ⟨-, hwriter, hport, hport', -, hsink, hagenda⟩ := h
  exact ⟨hvalid, hwriter, hport.respond hstatus hn, hport', hsource, hsink, hagenda⟩

/-- Machines stay alike when a Writer command ends alike on both. -/
theorem State.SameCounts.endWrite {s s' : State} (h : s.SameCounts s') {u v : WriterUnit} (hvalid : u.valid = v.valid)
    {a b : Sink} (hsink : a.SameCounts b) {r r' : Response} (hstatus : r.status = r'.status) (hn : r.n = r'.n) :
    (s.endWrite u a r).SameCounts (s'.endWrite v b r') := by
  obtain ⟨hreader, -, hport, hport', hsource, -, hagenda⟩ := h
  exact ⟨hreader, hvalid, hport, hport'.respond hstatus hn, hsource, hsink, hagenda⟩

/-- A write's response has the same status and count as its result. -/
theorem WriteResult.SameCounts.endWrite {p q : WriteResult} (h : p.SameCounts q) {s s' : State} (hs : s.SameCounts s') :
    (s.endWrite p.unit p.sink (respondErr p.status p.n 0 p.err)).SameCounts
      (s'.endWrite q.unit q.sink (respondErr q.status q.n 0 q.err)) :=
  hs.endWrite h.valid h.sink h.status (congrArg zext64 h.n)

/-- Two instructions that differ in their data alone: the discard flag, the value, and what the buffer holds. -/
inductive DifferInData : Instr → Instr → Prop
  | rdbits (count : BitVec 8) (d d' : Bool) : DifferInData (.rdbits count d) (.rdbits count d')
  | rdbytes (len : BitVec 32) {buf buf' : List Byte} (h : buf.length = buf'.length) :
      DifferInData (.rdbytes len buf) (.rdbytes len buf')
  | wrbits (count : BitVec 8) (value value' : Word) : DifferInData (.wrbits count value) (.wrbits count value')
  | wrbytes (len : BitVec 32) {buf buf' : List Byte} (h : buf.length = buf'.length) :
      DifferInData (.wrbytes len buf) (.wrbytes len buf')
  | padding : DifferInData .padding .padding
  | flush : DifferInData .flush .flush

/-- Instructions of one shape differ in their data alone. -/
theorem DifferInData.of_shape {i i' : Instr} (h : i.shape = i'.shape) : DifferInData i i' := by
  cases i with
  | rdbits count d => cases i' <;> cases h; exact .rdbits _ _ _
  | rdbytes len buf =>
    cases i' <;> simp only [Instr.shape, reduceCtorEq, Instr.rdbytes.injEq, List.replicate_left_inj] at h
    obtain ⟨rfl, hbuf⟩ := h
    exact .rdbytes _ hbuf
  | wrbits count value => cases i' <;> cases h; exact .wrbits _ _ _
  | wrbytes len buf =>
    cases i' <;> simp only [Instr.shape, reduceCtorEq, Instr.wrbytes.injEq, List.replicate_left_inj] at h
    obtain ⟨rfl, hbuf⟩ := h
    exact .wrbytes _ hbuf
  | padding => cases i' <;> cases h; exact .padding
  | flush => cases i' <;> cases h; exact .flush

/-- Commands that differ in their data alone end alike on machines that agree in every count (20_memory.md R53). -/
theorem exec_sameCounts {i i' : Instr} (hdata : DifferInData i i') {s s' : State} (h : s.SameCounts s') :
    EndsAlike State.SameCounts (exec i s) (exec i' s') := by
  obtain ⟨hreader, hwriter, -, -, hsource, hsink, -⟩ := id h
  cases hdata with
  | rdbits count d d' =>
    rw [exec, exec, execRdbits, execRdbits, hsource]
    refine (readBits_sameCounts _ hreader _).andThen fun p q hpq => ?_
    exact .next (h.endRead hpq.valid hpq.source hpq.status (congrArg zext64 hpq.n))
  | rdbytes len hbuf =>
    rw [exec, exec, execRdbytes, execRdbytes, hsource, hbuf]
    split
    · refine (readChunks_sameCounts _ _ _ _ hreader _).andThen fun p q hpq => ?_
      exact .next (h.endRead hpq.valid hpq.source hpq.status (congrArg zext64 hpq.n))
    · exact .refused _
  | wrbits count value value' =>
    exact (writeBits_sameCounts _ _ _ hwriter hsink).andThen fun p q hpq => .next (hpq.endWrite h)
  | wrbytes len hbuf =>
    rw [exec, exec, execWrbytes, execWrbytes, hbuf]
    split
    · exact (writeChunks_sameCounts _ _ _ _ hwriter hsink).andThen fun p q hpq => .next (hpq.endWrite h)
    · exact .refused _
  | padding =>
    rw [exec, exec, execPadding, execPadding, hwriter]
    exact .next (h.endWrite hwriter hsink rfl rfl)
  | flush => exact (flushBits_sameCounts hwriter hsink).andThen fun p q hpq => .next (hpq.endWrite h)

/-! ### The turns -/

/-- Of machines that are alike, the ports of each unit are. -/
theorem State.SameCounts.port {s s' : State} (h : s.SameCounts s') (p : PortId) : (s.port p).SameCounts (s'.port p) := by
  obtain ⟨-, -, hport, hport', -, -, -⟩ := h
  cases p with
  | reader => exact hport
  | writer => exact hport'

/-- Machines stay alike when a unit's ports are replaced by ports that are alike. -/
theorem State.SameCounts.setPort {s s' : State} (h : s.SameCounts s') (p : PortId) {a b : Port} (hab : a.SameCounts b) :
    (s.setPort p a).SameCounts (s'.setPort p b) := by
  obtain ⟨hreader, hwriter, hport, hport', hsource, hsink, hagenda⟩ := h
  cases p with
  | reader => exact ⟨hreader, hwriter, hab, hport', hsource, hsink, hagenda⟩
  | writer => exact ⟨hreader, hwriter, hport, hab, hsource, hsink, hagenda⟩

/-- Ports that are alike are idle both, or take up one command. -/
theorem Port.SameCounts.accept {a b : Port} (h : a.SameCounts b) :
    (a.accept = none ∧ b.accept = none) ∨
      ∃ c a' b', a.accept = some (c, a') ∧ b.accept = some (c, b') ∧ a'.SameCounts b' := by
  obtain ⟨hpending, hcurrent, hresponses⟩ := id h
  cases hb : b.current with
  | some c => exact .inr ⟨c, a, b, by simp [Port.accept, hcurrent, hb], by simp [Port.accept, hb], h⟩
  | none =>
    cases hp : b.pending with
    | nil => exact .inl ⟨by simp [Port.accept, hcurrent, hb, hpending, hp], by simp [Port.accept, hb, hp]⟩
    | cons c cs =>
      exact .inr ⟨c, ⟨cs, some c, a.responses⟩, ⟨cs, some c, b.responses⟩,
        by simp [Port.accept, hcurrent, hb, hpending, hp], by simp [Port.accept, hb, hp], rfl, rfl, hresponses⟩

/-- Commands that end alike end the turns alike, where they leave machines to wait that are alike. -/
theorem EndsAlike.waitOrDone {R : State → State → Prop} {s s' : State} (h : R s s') {o o' : Host.Outcome State Fault Refusal}
    (ho : EndsAlike R o o') : EndsAlike R (waitOrDone s o) (waitOrDone s' o') := by
  cases ho with
  | next ht => exact .next ht
  | fault f =>
    rw [waitOrDone_fault, waitOrDone_fault]
    exact .next h
  | refused r => exact .refused r

/-- A unit's turn ends alike on machines that agree in every count. -/
theorem serve_sameCounts (p : PortId) {s s' : State} (h : s.SameCounts s') :
    EndsAlike State.SameCounts (serve p s) (serve p s') := by
  obtain ⟨hs, hs'⟩ | ⟨c, a, b, hs, hs', hab⟩ := (h.port p).accept
  · rw [serve, serve, hs, hs']
    exact .next h
  have hport := h.setPort p hab
  rw [serve_of_accept hs, serve_of_accept hs', runCommand, runCommand]
  cases decode p c with
  | ok i => exact (exec_sameCounts (.of_shape rfl) hport).waitOrDone hport
  | error e => exact .next (hport.setPort p ((hport.port p).respond rfl rfl))

/-- A sink's answers after a reset depend on the length of its record alone (70_reset_and_hazards.md R233). -/
theorem Sink.SameCounts.afterReset {a b : Sink} (h : a.SameCounts b) (c : Option Command) :
    (a.afterReset c).SameCounts (b.afterReset c) := by
  obtain ⟨-, -, hlog⟩ := id h
  have hlength : a.log.length = b.log.length := by simpa using congrArg List.length hlog
  cases c with
  | none => exact h
  | some c => exact ⟨rfl, by simp only [Sink.afterReset, hlength], hlog⟩

/-- A reset leaves machines alike, whatever orders it samples. -/
theorem State.SameCounts.resetUnit {s s' : State} (h : s.SameCounts s') (p : PortId) :
    (s.resetUnit p).SameCounts (s'.resetUnit p) := by
  obtain ⟨hreader, hwriter, hport, hport', hsource, hsink, hagenda⟩ := h
  obtain ⟨hpending, hcurrent, hresponses⟩ := id hport
  obtain ⟨hpending', hcurrent', hresponses'⟩ := id hport'
  cases p with
  | reader =>
    exact ⟨rfl, hwriter, ⟨hpending, rfl, hresponses⟩, hport', by simp [hsource, hcurrent], hsink, hagenda⟩
  | writer =>
    refine ⟨hreader, rfl, hport, ⟨hpending', rfl, hresponses'⟩, hsource, ?_, hagenda⟩
    rw [resetUnit_writer_sink, resetUnit_writer_sink, hcurrent']
    exact hsink.afterReset _

/-- Every turn ends alike on machines that agree in every count. -/
theorem takeTurn_sameCounts (turn : Turn) {s s' : State} (h : s.SameCounts s') :
    EndsAlike State.SameCounts (takeTurn turn s) (takeTurn turn s') := by
  obtain ⟨hreader, hwriter, hport, hport', hsource, ⟨hscript, hrest, hlog⟩, hagenda⟩ := id h
  cases turn with
  | serve p => exact serve_sameCounts p h
  | reset p => exact .next (h.resetUnit p)
  | configure p order => cases p <;> exact .next h
  | attachSource script rest =>
    exact .next ⟨hreader, hwriter, hport, hport', by rw [hsource], ⟨hscript, hrest, hlog⟩, hagenda⟩
  | attachSink script rest => exact .next ⟨hreader, hwriter, hport, hport', hsource, ⟨rfl, rfl, hlog⟩, hagenda⟩

/-- Every step ends alike on machines that agree in every count (20_memory.md R53). -/
theorem step_sameCounts {s s' : State} (h : s.SameCounts s') : EndsAlike State.SameCounts (step s) (step s') := by
  obtain ⟨hreader, hwriter, hport, hport', hsource, hsink, hagenda⟩ := id h
  cases hturn : s.agenda with
  | nil =>
    rw [step, step, nextTurn, nextTurn, ← hagenda, hturn]
    exact .next h
  | cons turn ts =>
    rw [step_of_agenda hturn, step_of_agenda (hagenda ▸ hturn)]
    exact takeTurn_sameCounts turn ⟨hreader, hwriter, hport, hport', hsource, hsink, rfl⟩

/-! ### The obligations of 20_memory.md -/

/-- Settles O40: `exec_sameCounts` and `step_sameCounts`, for each way to end; two resets agree by definition. -/
theorem bitOrderLeavesCountsAlone : Obligations.BitOrderLeavesCountsAlone := by
  refine ⟨fun o o' q q' => ?reset, fun s o o' => ?orders, fun s s' i i' h hshape => ?commands, fun s s' h => ?steps⟩
  case reset => exact ⟨rfl, rfl, ⟨rfl, rfl, rfl⟩, ⟨rfl, rfl, rfl⟩, rfl, ⟨rfl, rfl, rfl⟩, rfl⟩
  case orders => exact ⟨rfl, rfl, ⟨rfl, rfl, rfl⟩, ⟨rfl, rfl, rfl⟩, rfl, ⟨rfl, rfl, rfl⟩, rfl⟩
  case commands =>
    have halike := exec_sameCounts (.of_shape hshape) h
    exact ⟨fun t h => (h ▸ halike).of_next, fun f h => (h ▸ halike).of_fault, fun r h => (h ▸ halike).of_refused⟩
  case steps =>
    have halike := step_sameCounts h
    exact ⟨fun t h => (h ▸ halike).of_next, fun r h => (h ▸ halike).of_refused⟩

/-- Settles O25: of the outcomes of a bit write, the two with a fill record one write of an emit's 8 bytes. -/
theorem wrbitsEmitsOnlyFullRegisters : Obligations.WrbitsEmitsOnlyFullRegisters := by
  intro s t count value h
  obtain ⟨q, hq, rfl⟩ := execWrbits_eq_next h
  have hroom := writerRoom_add_valid s.writer
  cases writeBits_outcome hq with
  | rejected hnofill | buffered hnofill =>
    rw [if_neg (by omega)]
    simp [writesSince]
  | emitted hcount hfill bytes hbytes | failed hcount hfill bytes hbytes =>
    rw [if_pos ⟨hcount, by omega⟩]
    simp [writesSince, hbytes]

end Sys2Proof.Machine
end

section
/-!
SUPPORT. The opcode map and the decoders (30_encoding.md R71 to R78): two rows that disagree on a bit both look at share no
word, so what a port decodes is fixed by the row the word matches; and the obligations on encoding and decoding.
-/

namespace Sys2Proof

open Laws.OwnRow (rowOf)

/-! ### The rows of the opcode map -/

/-- Two rows that ask for different values of the bits they both look at share no word (30_encoding.md R76). -/
theorem OpcodeRow.not_hits_of_hits {a b : OpcodeRow} {w : CmdWord} (ha : a.hits w = true)
    (hne : a.pattern &&& b.mask ≠ b.pattern &&& a.mask) : ¬ b.hits w = true := by
  refine fun hb => hne ?_
  have ha : w &&& a.mask = a.pattern := eq_of_beq ha
  have hb : w &&& b.mask = b.pattern := eq_of_beq hb
  rw [← ha, ← hb]
  ac_rfl

/-- Two words of one row that agree in the bits the row leaves free are one word (30_encoding.md R76). -/
theorem OpcodeRow.eq_of_hits {row : OpcodeRow} {v w : CmdWord} (hv : row.hits v = true) (hw : row.hits w = true)
    (hfree : v &&& ~~~row.mask = w &&& ~~~row.mask) : v = w := by
  have hsplit (x : CmdWord) : (x &&& row.mask) ||| (x &&& ~~~row.mask) = x := by
    rw [← BitVec.and_or_distrib_left, BitVec.or_not_self, BitVec.and_allOnes]
  have hv : v &&& row.mask = row.pattern := eq_of_beq hv
  have hw : w &&& row.mask = row.pattern := eq_of_beq hw
  rw [← hsplit v, ← hsplit w, hv, hw, hfree]

/-- A row of one port and a row of the other share no word (30_encoding.md R77). -/
theorem other_rows_miss {p : PortId} {a b : OpcodeRow} {w : CmdWord} (ha : a ∈ p.rows) (hb : b ∈ p.other.rows)
    (hhits : a.hits w = true) : b.hits w = false := by
  have hdiffer : ∀ a ∈ p.rows, ∀ b ∈ p.other.rows, a.pattern &&& b.mask ≠ b.pattern &&& a.mask := by
    cases p <;> decide
  exact Bool.eq_false_iff.mpr (OpcodeRow.not_hits_of_hits hhits (hdiffer a ha b hb))

/-- The row of an instruction belongs to the instruction's port (30_encoding.md R76). -/
theorem rowOf_mem_rows (i : Instr) : rowOf i ∈ i.port.rows := by
  cases i <;> simp [rowOf, Instr.port, PortId.rows]

/-- The word that spells an instruction matches the instruction's row (30_encoding.md R76). -/
theorem rowOf_hits_encode (i : Instr) : (rowOf i).hits (encode i).cmd = true := by
  cases i with
  | rdbits count d => exact (Laws.OwnRow.rdbits count d).1
  | rdbytes len buf => exact (Laws.OwnRow.rdbytes len buf).1
  | wrbits count value => exact (Laws.OwnRow.wrbits count value).1
  | wrbytes len buf => exact (Laws.OwnRow.wrbytes len buf).1
  | padding => exact Laws.OwnRow.padding.1
  | flush => exact Laws.OwnRow.flush.1

/-! ### What the decoders give -/

/-- The operands of an instruction are the fields of a command that its row reads (30_encoding.md R72 to R75). -/
def Instr.HoldsFields (c : Command) : Instr → Prop
  | .rdbits count d => count = countField c.cmd ∧ d = discardField c.cmd
  | .rdbytes len buf => len = lenField c.operand ∧ buf = c.buf
  | .wrbits count value => count = countField c.cmd ∧ value = c.operand
  | .wrbytes len buf => len = lenField c.operand ∧ buf = c.buf
  | .padding => True
  | .flush => True

/-- A word that decodes matches the row of the instruction, whose operands are the command's fields (30_encoding.md R77). -/
theorem hits_of_decode {p : PortId} {c : Command} {i : Instr} (h : decode p c = .ok i) :
    (rowOf i).hits c.cmd = true ∧ i.HoldsFields c := by
  cases p with
  | reader =>
    simp only [decode, decodeReader] at h
    split_ifs at h with hrow hrow <;> cases h <;> exact ⟨hrow, by simp [Instr.HoldsFields]⟩
  | writer =>
    simp only [decode, decodeWriter] at h
    split_ifs at h with hrow hrow hrow hrow <;> cases h <;> exact ⟨hrow, by simp [Instr.HoldsFields]⟩

/-- A word that matches the row of an instruction whose operands are the command's fields decodes to it: no row looked at
before shares the word (30_encoding.md R77). -/
theorem decode_of_hits {c : Command} {i : Instr} (hrow : (rowOf i).hits c.cmd = true) (hfields : i.HoldsFields c) :
    decode i.port c = .ok i := by
  cases i with
  | rdbits =>
    obtain ⟨rfl, rfl⟩ := hfields
    exact if_pos hrow
  | rdbytes =>
    obtain ⟨rfl, rfl⟩ := hfields
    have hrdbits : ¬ rowRdbits.hits c.cmd = true := OpcodeRow.not_hits_of_hits (a := rowRdbytes) hrow (by decide)
    exact (if_neg hrdbits).trans (if_pos hrow)
  | wrbits =>
    obtain ⟨rfl, rfl⟩ := hfields
    exact if_pos hrow
  | wrbytes =>
    obtain ⟨rfl, rfl⟩ := hfields
    have hwrbits : ¬ rowWrbits.hits c.cmd = true := OpcodeRow.not_hits_of_hits (a := rowWrbytes) hrow (by decide)
    exact (if_neg hwrbits).trans (if_pos hrow)
  | padding =>
    have hwrbits : ¬ rowWrbits.hits c.cmd = true := OpcodeRow.not_hits_of_hits hrow (by decide)
    have hwrbytes : ¬ rowWrbytes.hits c.cmd = true := OpcodeRow.not_hits_of_hits hrow (by decide)
    exact (if_neg hwrbits).trans ((if_neg hwrbytes).trans (if_pos hrow))
  | flush =>
    have hwrbits : ¬ rowWrbits.hits c.cmd = true := OpcodeRow.not_hits_of_hits hrow (by decide)
    have hwrbytes : ¬ rowWrbytes.hits c.cmd = true := OpcodeRow.not_hits_of_hits hrow (by decide)
    have hpadding : ¬ rowPadding.hits c.cmd = true := OpcodeRow.not_hits_of_hits hrow (by decide)
    exact (if_neg hwrbits).trans ((if_neg hwrbytes).trans ((if_neg hpadding).trans (if_pos hrow)))

/-- A word is ILLEGAL on a port exactly when it matches no row of the port (30_encoding.md R77, R78). -/
theorem decode_eq_error_iff {p : PortId} {c : Command} :
    (∃ e, decode p c = .error e) ↔ ∀ row ∈ p.rows, row.hits c.cmd = false := by
  cases p with
  | reader =>
    simp only [decode, decodeReader, PortId.rows, List.forall_mem_cons]
    split_ifs with hrdbits hrdbytes <;> simp [*]
  | writer =>
    simp only [decode, decodeWriter, PortId.rows, List.forall_mem_cons]
    split_ifs with hwrbits hwrbytes hpadding hflush <;> simp [*]

/-- A word that matches the row of an instruction is ILLEGAL on the port of the other unit (30_encoding.md R77). -/
theorem decode_other_of_hits {c : Command} {i : Instr} (hrow : (rowOf i).hits c.cmd = true) :
    ∃ e, decode i.port.other c = .error e :=
  decode_eq_error_iff.mpr fun _ hother => other_rows_miss (rowOf_mem_rows i) hother hrow

/-! ### The fields of a word -/

@[simp] theorem countField_formatC (op : BitVec 8) (d : Bool) (count : BitVec 8) :
    countField (formatC op d count) = count := by
  rw [countField, formatC, BitVec.extractLsb'_append_eq_right]

@[simp] theorem discardField_formatC (op : BitVec 8) (d : Bool) (count : BitVec 8) :
    discardField (formatC op d count) = d := by
  rw [discardField, formatC, BitVec.getLsbD_append, BitVec.getLsbD_append, BitVec.getLsbD_append]
  simp

@[simp] theorem lenField_setWidth (len : BitVec 32) : lenField (len.setWidth 64) = len := by
  rw [lenField, ← BitVec.setWidth_eq_extractLsb' (by decide), BitVec.setWidth_setWidth_of_le _ (by decide),
    BitVec.setWidth_eq]

/-- The command that spells an instruction has the instruction's operands as its fields (30_encoding.md R72 to R75). -/
theorem holdsFields_encode (i : Instr) : i.HoldsFields (encode i) := by
  cases i <;> simp [Instr.HoldsFields, encode]

/-- The low 8 bits of a word are its count field (30_encoding.md R71). -/
theorem and_countMask (w : CmdWord) : w &&& 0xFF#32 = (countField w).setWidth 32 := by
  refine BitVec.eq_of_toNat_eq ((Nat.and_two_pow_sub_one_eq_mod w.toNat 8).trans ?_)
  rw [BitVec.toNat_setWidth_of_le (by decide)]
  simp [countField]

/-- Bit 16 of a word is its discard field (30_encoding.md R71). -/
theorem and_discardMask (w : CmdWord) : w &&& 0x10000#32 = if discardField w then 0x10000#32 else 0#32 :=
  BitVec.and_twoPow w 16

/-- The word that spells an instruction agrees with each word of those fields in the bits the instruction's row leaves
free (30_encoding.md R76). -/
theorem encode_free_bits {c : Command} {i : Instr} (h : i.HoldsFields c) :
    (encode i).cmd &&& ~~~(rowOf i).mask = c.cmd &&& ~~~(rowOf i).mask := by
  cases i with
  | rdbits count d =>
    obtain ⟨rfl, rfl⟩ := h
    have hfree : ~~~rowRdbits.mask = 0x10000#32 ||| 0xFF#32 := by decide
    simp only [rowOf, hfree, encode, BitVec.and_or_distrib_left, and_countMask, and_discardMask, countField_formatC,
      discardField_formatC]
  | wrbits count value =>
    obtain ⟨rfl, rfl⟩ := h
    have hfree : ~~~rowWrbits.mask = 0xFF#32 := by decide
    simp [rowOf, hfree, encode, and_countMask]
  | rdbytes | wrbytes | padding | flush =>
    have hfree : ~~~0xFFFFFFFF#32 = 0#32 := by decide
    simp [rowOf, rowRdbytes, rowWrbytes, rowPadding, rowFlush, hfree]

/-! ### The obligations on encoding and decoding -/

/-- Settles O1: the instruction's word matches its row, and its operands are the fields of its command. -/
theorem decodeUndoesEncode : Obligations.DecodeUndoesEncode := fun i =>
  ⟨decode_of_hits (rowOf_hits_encode i) (holdsFields_encode i), decode_other_of_hits (rowOf_hits_encode i)⟩

/-- Settles O2: the word that decodes and the word that spells the result match one row and agree in its free bits. -/
theorem encodeUndoesDecode : Obligations.EncodeUndoesDecode := by
  intro p c i h
  obtain ⟨hrow, hfields⟩ := hits_of_decode h
  refine ⟨Machine.decode_port h, OpcodeRow.eq_of_hits (rowOf_hits_encode i) hrow (encode_free_bits hfields), ?_, ?_⟩
  · rintro count value rfl
    exact hfields.2
  · have hlen : (lenField c.operand).toNat = c.operand.toNat % 2 ^ 32 := by simp [lenField]
    rintro len buf (rfl | rfl) <;> obtain ⟨rfl, rfl⟩ := hfields <;> exact ⟨hlen, rfl⟩

/-- Settles O3: the decoders reject what matches no row of their port, and no word matches rows of both ports. -/
theorem illegalExactlyWithoutRow : Obligations.IllegalExactlyWithoutRow := by
  refine fun p c => ⟨decode_eq_error_iff, fun i h => ?_⟩
  obtain ⟨hrow, -⟩ := hits_of_decode h
  exact Machine.decode_port h ▸ decode_other_of_hits hrow

/-- Settles O4: any two rows of the map ask for different values of bits they both look at. -/
theorem opcodeRowsDoNotOverlap : Obligations.OpcodeRowsDoNotOverlap := by
  have hdiffer : opcodeRows.Pairwise fun a b => a.pattern &&& b.mask ≠ b.pattern &&& a.mask := by decide
  exact hdiffer.imp fun hne w ⟨ha, hb⟩ => OpcodeRow.not_hits_of_hits ha hne hb

/-- Settles O5, by running the decoders on the words. -/
theorem decodesTheWordsOfTheSpec : Obligations.DecodesTheWordsOfTheSpec := by
  unfold Obligations.DecodesTheWordsOfTheSpec
  decide

end Sys2Proof
end

section
/-!
SUPPORT. The responses (30_encoding.md R80, R81, 60_exceptions.md R202): the statuses and tokens a command's operations can
end with, so the form of each response a unit gives; and the obligations on responses, the discard flag and ALIGNW.
-/

namespace Sys2Proof.Machine

/-! ### The statuses and tokens of the operations -/

/-- A token comes only with TransportError (30_encoding.md R80). -/
abbrev TokenFits (status : Status) (err : ErrToken) : Prop := status = .transportError ∨ err = ErrToken.zero

/-- A bit read gives a token only with TransportError, and a value only with OK and EndOfStream (30_encoding.md R80). -/
theorem readBits_form {count : Nat} {u : ReaderUnit} {src : Source} {r : ReadResult}
    (h : readBits count u src = .next r) :
    TokenFits r.status r.err ∧ (r.status = .ok ∨ r.status = .endOfStream ∨ r.value = 0) := by
  cases readBits_outcome h with
  | rejected => exact ⟨.inr rfl, .inr (.inr rfl)⟩
  | buffered | refilled => exact ⟨.inr rfl, .inl rfl⟩
  | failed => exact ⟨.inl rfl, .inr (.inr rfl)⟩
  | short => exact ⟨.inr rfl, .inr (.inl rfl)⟩

/-- A loop of reads gives a token only with TransportError (30_encoding.md R80). -/
theorem readChunks_token {cs : List Nat} {i : Nat} {buf : List Byte} {u : ReaderUnit} {src : Source} {r : FillResult}
    (h : readChunks cs i buf u src = .next r) : TokenFits r.status r.err := by
  induction cs generalizing i buf u src with
  | nil => cases h; exact .inr rfl
  | cons c cs ih =>
    obtain ⟨q, -, ⟨-, hr⟩ | ⟨-, rfl⟩ | ⟨-, -, rfl⟩⟩ := readChunks_cons_eq_next h
    · exact ih hr
    · exact .inr rfl
    · exact .inl rfl

/-- A write to the bit stream ends never with EndOfStream, and with a token only on TransportError (30_encoding.md R80,
60_exceptions.md R202). -/
abbrev WriteResult.Form (r : WriteResult) : Prop := r.status ≠ .endOfStream ∧ TokenFits r.status r.err

theorem settleWrite_form (u after : WriterUnit) (n : Nat) (answer : SinkReply × Sink) :
    (settleWrite u after n answer).Form := by
  obtain ⟨reply, snk⟩ := answer
  cases reply with
  | ok => exact ⟨nofun, .inr rfl⟩
  | error acc e => exact ⟨nofun, .inl rfl⟩

theorem writeBits_form {count value : Nat} {u : WriterUnit} {snk : Sink} {r : WriteResult}
    (h : writeBits count value u snk = .next r) : r.Form := by
  obtain ⟨-, rfl⟩ | ⟨-, -, rfl⟩ | ⟨-, -, reply, -, rfl⟩ := writeBits_eq_next h
  · exact ⟨nofun, .inr rfl⟩
  · exact ⟨nofun, .inr rfl⟩
  · exact settleWrite_form _ _ _ _

theorem flushBits_form {u : WriterUnit} {snk : Sink} {r : WriteResult} (h : flushBits u snk = .next r) : r.Form := by
  obtain ⟨-, rfl⟩ | ⟨-, reply, -, rfl⟩ := flushBits_eq_next h
  · exact ⟨nofun, .inr rfl⟩
  · exact settleWrite_form _ _ _ _

theorem writeChunks_form {cs : List Nat} {i : Nat} {buf : List Byte} {u : WriterUnit} {snk : Sink} {r : WriteResult}
    (h : writeChunks cs i buf u snk = .next r) : r.Form := by
  induction cs generalizing i u snk with
  | nil => cases h; exact ⟨nofun, .inr rfl⟩
  | cons c cs ih =>
    obtain ⟨q, -, ⟨-, rfl⟩ | ⟨-, hr⟩⟩ := writeChunks_cons_eq_next h
    · exact ⟨nofun, .inl rfl⟩
    · exact ih hr

/-! ### The form of the responses -/

/-- Has the response the form of the port's responses (30_encoding.md R80, 60_exceptions.md R202)? -/
def Response.formAt (r : Response) : PortId → Bool
  | .reader => r.readerForm
  | .writer => r.writerForm

theorem responsesFit_iff {s : State} :
    s.ResponsesFit ↔ ∀ p, ∀ r ∈ (s.port p).responses, r.formAt p = true :=
  ⟨fun ⟨hreader, hwriter⟩ p => by cases p; exacts [hreader, hwriter], fun h => ⟨h .reader, h .writer⟩⟩

/-- A response of the Reader has its form when its value fits its count (30_encoding.md R80). -/
theorem readerForm_respondErr {status : Status} {n value : Nat} {err : ErrToken} (htoken : TokenFits status err)
    (hvalue : status = .ok ∨ status = .endOfStream ∨ value = 0) (hn : n ≤ 64) (hfits : value < 2 ^ n) :
    (respondErr status n value err).readerForm = true := by
  have hnword : (zext64 n).toNat = n := zext64_toNat (by omega)
  have hword : (zext64 value).toNat < 2 ^ n := (Nat.mod_le _ _).trans_lt hfits
  have hzero : status = .ok ∨ status = .endOfStream ∨ zext64 value = 0#64 := by
    refine hvalue.imp_right (Or.imp_right ?_)
    rintro rfl
    rfl
  simp [Response.readerForm, respondErr, htoken, hnword, hword, or_assoc, hzero]

/-- A response of RDBYTES has the Reader's form: it carries no value (30_encoding.md R80). -/
theorem readerForm_respondBuf {status : Status} {err : ErrToken} (htoken : TokenFits status err) (n : Nat)
    (buf : List Byte) : (respondBuf status n err buf).readerForm = true := by
  simp [Response.readerForm, respondBuf, htoken]

/-- A response of the Writer without a value has its form (30_encoding.md R80, 60_exceptions.md R202). -/
theorem WriteResult.Form.writerForm {r : WriteResult} (h : r.Form) :
    (respondErr r.status r.n 0 r.err).writerForm = true := by
  obtain ⟨hstatus, htoken⟩ := h
  simp [Response.writerForm, respondErr, hstatus, htoken, zext64]

/-- A completed Reader command ends with a response of the Reader's form. -/
theorem exec_reader_form {i : Instr} {s t : State} (hi : i.port = .reader) (h : exec i s = .next t) :
    ∃ u src r, t = s.endRead u src r ∧ r.readerForm = true := by
  cases i with
  | rdbits count d =>
    obtain ⟨q, hq, rfl⟩ := execRdbits_eq_next h
    obtain ⟨htoken, hvalue⟩ := readBits_form hq
    obtain ⟨hn, hfits⟩ := readBits_value_fits hq
    refine ⟨_, _, _, rfl, ?_⟩
    cases d with
    | false => exact readerForm_respondErr htoken hvalue hn hfits
    | true => exact readerForm_respondErr htoken (.inr (.inr rfl)) hn (Nat.two_pow_pos _)
  | rdbytes len buf =>
    obtain ⟨-, q, hq, rfl⟩ := execRdbytes_eq_next h
    exact ⟨_, _, _, rfl, readerForm_respondBuf (readChunks_token hq) _ _⟩
  | wrbits | wrbytes | padding | flush => cases hi

/-- A completed Writer command ends with a response of the Writer's form. -/
theorem exec_writer_form {i : Instr} {s t : State} (hi : i.port = .writer) (h : exec i s = .next t) :
    ∃ u snk r, t = s.endWrite u snk r ∧ r.writerForm = true := by
  cases i with
  | rdbits | rdbytes => cases hi
  | wrbits count value =>
    obtain ⟨q, hq, rfl⟩ := execWrbits_eq_next h
    exact ⟨_, _, _, rfl, (writeBits_form hq).writerForm⟩
  | wrbytes len buf =>
    obtain ⟨-, q, hq, rfl⟩ := execWrbytes_eq_next h
    exact ⟨_, _, _, rfl, (writeChunks_form hq).writerForm⟩
  | padding => cases h; exact ⟨_, _, _, rfl, rfl⟩
  | flush =>
    obtain ⟨q, hq, rfl⟩ := execFlush_eq_next h
    exact ⟨_, _, _, rfl, (flushBits_form hq).writerForm⟩

/-! ### The responses of a step -/

/-- Between two states of a port it gave no response, or one of its form (30_encoding.md R80). -/
def Port.GaveInForm (p : PortId) (a b : Port) : Prop :=
  b.responses = a.responses ∨ ∃ r, r.formAt p = true ∧ b.responses = a.responses ++ [r]

theorem Port.GaveInForm.keeps {p : PortId} {a b : Port} (h : a.GaveInForm p b)
    (ha : ∀ r ∈ a.responses, r.formAt p = true) : ∀ r ∈ b.responses, r.formAt p = true := by
  obtain hsame | ⟨r, hr, happend⟩ := h
  · rwa [hsame]
  · rw [happend]
    simpa [or_imp, forall_and, hr] using ha

theorem Port.GaveInForm.of_same {p : PortId} {a a' b : Port} (hsame : a'.responses = a.responses)
    (h : a'.GaveInForm p b) : a.GaveInForm p b := by
  rwa [Port.GaveInForm, ← hsame]

/-- A completed command gives its own port one response of the port's form, and the other port none. -/
theorem exec_gaveInForm {i : Instr} {s t : State} (h : exec i s = .next t) (p : PortId) :
    (s.port p).GaveInForm p (t.port p) := by
  cases hport : i.port with
  | reader =>
    obtain ⟨u, src, r, rfl, hr⟩ := exec_reader_form hport h
    cases p with
    | reader => exact .inr ⟨r, hr, rfl⟩
    | writer => exact .inl rfl
  | writer =>
    obtain ⟨u, snk, r, rfl, hr⟩ := exec_writer_form hport h
    cases p with
    | reader => exact .inl rfl
    | writer => exact .inr ⟨r, hr, rfl⟩

/-- The IllegalCommand answer has the form of either port (30_encoding.md R78). -/
theorem endIllegal_gaveInForm (s : State) (p q : PortId) : (s.port q).GaveInForm q ((s.endIllegal p).port q) := by
  cases p <;> cases q
  case reader.reader | writer.writer => exact .inr ⟨_, rfl, rfl⟩
  case reader.writer | writer.reader => exact .inl rfl

/-- A unit that takes up a command has given no response yet (10_state.md R35). -/
theorem setPort_accept_responses {s : State} {p : PortId} {c : Command} {port : Port}
    (h : (s.port p).accept = some (c, port)) (q : PortId) :
    ((s.setPort p port).port q).responses = (s.port q).responses := by
  obtain ⟨-, hresponses, -⟩ := Port.accept_some h
  cases p <;> cases q
  case reader.reader | writer.writer => exact hresponses
  case reader.writer | writer.reader => rfl

theorem serve_gaveInForm {p : PortId} {s t : State} (h : serve p s = .next t) (q : PortId) :
    (s.port q).GaveInForm q (t.port q) := by
  obtain ⟨-, rfl⟩ | ⟨c, port, haccept, hcase⟩ := serve_eq_next h
  · exact .inl rfl
  refine .of_same (setPort_accept_responses haccept q) ?_
  obtain ⟨e, -, rfl⟩ | ⟨i, -, hexec | ⟨rfl, -⟩⟩ := hcase
  · exact endIllegal_gaveInForm _ p q
  · exact exec_gaveInForm hexec q
  · exact .inl rfl

/-- In a step each port gives at most one response, of its form. -/
theorem step_gaveInForm {s t : State} (h : step s = .next t) (p : PortId) : (s.port p).GaveInForm p (t.port p) := by
  obtain ⟨-, rfl⟩ | ⟨turn, ts, -, hturn⟩ := step_eq_next h
  · exact .inl rfl
  cases turn with
  | serve q => simpa using serve_gaveInForm hturn p
  | reset q => cases hturn; cases p <;> cases q <;> exact .inl rfl
  | configure q => cases hturn; cases p <;> cases q <;> exact .inl rfl
  | attachSource | attachSink => cases hturn; cases p <;> exact .inl rfl

/-! ### Padding -/

/-- The padding reaches a byte boundary (41_bitwriter.md R130). -/
theorem add_paddingBits_mod_eight (valid : Nat) : (valid + paddingBits valid) % 8 = 0 := by
  unfold paddingBits
  omega

/-- The count that ALIGNW takes from the response of PADDING is the padding (30_encoding.md R84). -/
theorem setWidth_zext64_paddingBits (valid : Nat) :
    ((zext64 (paddingBits valid)).setWidth 8).toNat = paddingBits valid := by
  have hlt : paddingBits valid < 8 := Nat.mod_lt _ (by decide)
  rw [BitVec.toNat_setWidth, zext64_toNat (by omega)]
  omega

/-! ### The obligations on responses and pseudo-instructions -/

/-- Settles O58: a step gives each port at most one response, of its form. -/
theorem stepKeepsResponseForm : Obligations.StepKeepsResponseForm := fun _ _ hs h =>
  responsesFit_iff.mpr fun p => (step_gaveInForm h p).keeps (responsesFit_iff.mp hs p)

/-- Settles O6, status by status and code by code. -/
theorem statusCodesOfTheSpec : Obligations.StatusCodesOfTheSpec := by
  refine ⟨fun st => ?_, by decide, rfl, rfl, rfl, rfl, rfl⟩
  cases st <;> rfl

/-- Settles O12: both forms end the same bit read, and the flag is looked at for the value of the response alone. -/
theorem rdbitsDiscardChangesOnlyValue : Obligations.RdbitsDiscardChangesOnlyValue := by
  intro s t count r h hgave
  obtain ⟨q, hq, rfl⟩ := execRdbits_eq_next h
  obtain rfl := readerGave_endRead.mp hgave
  exact exec_rdbits_of_next hq

/-- Settles O28: an OK write adds as many bits as the padding to those buffered, and what it emits is whole bytes. -/
theorem alignwReachesByteBoundary : Obligations.AlignwReachesByteBoundary := by
  intro s t u r q hpadding hr hwrite hq hok
  cases hpadding
  obtain rfl := writerGave_endWrite.mp hr
  obtain ⟨w, hw, rfl⟩ := execWrbits_eq_next hwrite
  obtain rfl := writerGave_endWrite.mp hq
  obtain ⟨-, writes, -, hbits⟩ := writeBits_conserves hw hok
  have hlen : s.writer.valid.toNat + ((zext64 (paddingBits s.writer.valid.toNat)).setWidth 8).toNat =
      8 * (acceptedBytes writes).length + w.unit.valid.toNat := congrArg Bits.len hbits
  rw [setWidth_zext64_paddingBits] at hlen
  have haligned := add_paddingBits_mod_eight s.writer.valid.toNat
  change w.unit.valid.toNat % 8 = 0
  omega

/-- Settles O48: a turn that takes up such a word answers it by definition. -/
theorem illegalWordIsAnswered : Obligations.IllegalWordIsAnswered := by
  intro s p ts c port e hturn haccept hdecode
  calc step s = runCommand p c { s.setPort p port with agenda := ts } := step_of_accept hturn haccept
    _ = .next (State.endIllegal { s.setPort p port with agenda := ts } p) := by simp [runCommand, hdecode]
    _ = _ := by cases p <;> rfl

end Sys2Proof.Machine
end

section
/-!
SUPPORT. What a bit read returns in each of its cases, from the answer of the source (40_bitreader.md R102 to R109), and the
obligations on RDBITS.
-/

namespace Sys2Proof.Machine

/-! ### A bit read, case by case -/

/-- A read of no bits hands out nothing and leaves the unit as it was (40_bitreader.md R112). -/
theorem readBits_zero (u : ReaderUnit) (src : Source) : readBits 0 u src = .next ⟨.ok, 0, 0, ErrToken.zero, u, src⟩ := by
  have hvalue : top (readerContent u) u.valid.toNat 0 = 0 := Nat.div_eq_of_lt (readerContent_lt u)
  rw [readBits_buffered src (Nat.zero_le 64) (Nat.zero_le _), readBuffered, hvalue, Nat.sub_zero, BitVec.ofNat_toNat,
    BitVec.setWidth_eq]

/-- A refill that brings enough bits (40_bitreader.md R106). -/
theorem readBits_enough {count : Nat} {u : ReaderUnit} {src : Source} {bytes : List Byte} (hcount : count ≤ 64)
    (hvalid : u.valid.toNat < count) (hanswer : src.answer = some (.data bytes)) (hlen : bytes.length ≤ 8)
    (henough : count - u.valid.toNat ≤ 8 * bytes.length) :
    readBits count u src = .next
      ⟨.ok, count,
        concatBits (readerContent u) (count - u.valid.toNat)
          (top (freshBits u.order bytes) (8 * bytes.length) (count - u.valid.toNat)),
        ErrToken.zero,
        ⟨u.order, zext64 (freshBits u.order bytes), BitVec.ofNat 7 (8 * bytes.length - (count - u.valid.toNat))⟩,
        src.answered (.data bytes)⟩ := by
  rw [readBits_refill src hcount hvalid, srcRead_data hanswer hlen, andThen_next, refill, if_neg (Nat.not_lt.mpr henough)]

/-- A refill that brings too few bits (40_bitreader.md R107). -/
theorem readBits_tooFew {count : Nat} {u : ReaderUnit} {src : Source} {bytes : List Byte} (hcount : count ≤ 64)
    (hvalid : u.valid.toNat < count) (hanswer : src.answer = some (.data bytes)) (hlen : bytes.length ≤ 8)
    (hshort : 8 * bytes.length < count - u.valid.toNat) :
    readBits count u src = .next
      ⟨.endOfStream, u.valid.toNat + 8 * bytes.length,
        concatBits (readerContent u) (8 * bytes.length) (freshBits u.order bytes), ErrToken.zero,
        ⟨u.order, zext64 (freshBits u.order bytes), 0#7⟩, src.answered (.data bytes)⟩ := by
  rw [readBits_refill src hcount hvalid, srcRead_data hanswer hlen, andThen_next, refill, if_pos hshort]

/-- A refill that the source answers with an error (40_bitreader.md R109). -/
theorem readBits_error {count : Nat} {u : ReaderUnit} {src : Source} {e : ErrToken} (hcount : count ≤ 64)
    (hvalid : u.valid.toNat < count) (hanswer : src.answer = some (.error e)) :
    readBits count u src = .next ⟨.transportError, 0, 0, e, u, src.answered (.error e)⟩ := by
  rw [readBits_refill src hcount hvalid, srcRead_error hanswer, andThen_next, refill]

/-! ### A source that is used up -/

/-- A short read from a finite byte list uses the list up (40_bitreader.md R116). -/
theorem readBits_short_stream {count : Nat} {u : ReaderUnit} {src : Source} {bytes : List Byte} {r : ReadResult}
    (hsrc : src.Streams bytes) (h : readBits count u src = .next r) (heos : r.status = .endOfStream) :
    r.source.Streams [] := by
  have hcount : count ≤ 64 := by
    cases readBits_outcome h with
    | rejected | failed | buffered | refilled => cases heos
    | short hcount => exact hcount
  obtain ⟨q, -, rest, hq, hrest, -, -, hstatus⟩ := readBits_stream u hsrc hcount
  obtain rfl : r = q := by simpa [h] using hq
  obtain hok | ⟨-, rfl⟩ := hstatus
  · simp [heos] at hok
  · exact hrest

/-- With nothing buffered and the source used up, a read is short and hands out nothing (40_bitreader.md R116). -/
theorem readBits_exhausted {count : Nat} {u : ReaderUnit} {src : Source} (hvalid : u.valid = 0#7)
    (hsrc : src.Streams []) (hpos : 1 ≤ count) (hcount : count ≤ 64) :
    readBits count u src =
      .next ⟨.endOfStream, 0, 0, ErrToken.zero, ⟨u.order, 0#64, 0#7⟩, src.answered (.data [])⟩ := by
  have hempty : u.valid.toNat = 0 := by rw [hvalid]; rfl
  have hcontent : readerContent u = 0 := by
    have := readerContent_lt u
    rwa [hempty, Nat.pow_zero, Nat.lt_one_iff] at this
  rw [readBits_tooFew (bytes := []) hcount (by omega) hsrc.answer_eq (Nat.zero_le 8)
    (show 0 < count - u.valid.toNat by omega), hempty, hcontent]
  rfl

/-! ### The obligations on RDBITS -/

/-- RDBITS, with its response and the rest of the next state written out (40_bitreader.md R101). -/
theorem exec_rdbits_eq {s : State} {count : BitVec 8} {d : Bool} {q : ReadResult}
    (h : readBits count.toNat s.reader s.source = .next q) :
    exec (.rdbits count d) s =
      .next { s with
        reader := q.unit
        source := q.source
        readerPort := s.readerPort.respond
          ⟨q.status, BitVec.ofNat 64 q.n, if d then 0#64 else BitVec.ofNat 64 q.value, q.err, []⟩ } := by
  rw [exec_rdbits_of_next h]
  cases d <;> rfl

/-- RDBITS with a bit read whose value is 0 answers 0 whatever the discard flag (30_encoding.md R74). -/
theorem exec_rdbits_eq_of_value_zero {s : State} {count : BitVec 8} {status : Status} {n : Nat} {err : ErrToken}
    {u : ReaderUnit} {src : Source} (d : Bool)
    (h : readBits count.toNat s.reader s.source = .next ⟨status, n, 0, err, u, src⟩) :
    exec (.rdbits count d) s =
      .next { s with
        reader := u
        source := src
        readerPort := s.readerPort.respond ⟨status, BitVec.ofNat 64 n, 0#64, err, []⟩ } := by
  rw [exec_rdbits_eq h]
  cases d <;> rfl

/-- RDBITS of no bits answers OK and leaves all else as it was (40_bitreader.md R112). -/
theorem exec_rdbits_zero (s : State) (d : Bool) :
    exec (.rdbits 0#8 d) s =
      .next { s with readerPort := s.readerPort.respond ⟨.ok, 0#64, 0#64, ErrToken.zero, []⟩ } :=
  exec_rdbits_eq_of_value_zero d (readBits_zero s.reader s.source)

/-- Settles O8: the buffered path of a bit read, and `exec_rdbits_zero`. -/
theorem rdbitsServedFromRegister : Obligations.RdbitsServedFromRegister := by
  intro s count d hcount hvalid v
  refine ⟨top_lt hvalid (readerContent_lt s.reader), exec_rdbits_eq (readBits_buffered s.source hcount hvalid), ?_⟩
  rintro rfl
  exact exec_rdbits_zero s d

/-- Settles O9: `readBits_enough`, whose value fits as every bit read's does. -/
theorem rdbitsRefillWithEnoughBits : Obligations.RdbitsRefillWithEnoughBits := by
  intro s count d bytes hcount hvalid hanswer hlen henough needed fresh v
  have hread := readBits_enough hcount hvalid hanswer hlen henough
  exact ⟨(readBits_value_fits hread).2, exec_rdbits_eq hread⟩

/-- Settles O10: `readBits_tooFew`, whose value fits as every bit read's does. -/
theorem rdbitsShortReturn : Obligations.RdbitsShortReturn := by
  intro s count d bytes hcount hvalid hanswer hlen hshort n fresh v
  have hread := readBits_tooFew hcount hvalid hanswer hlen hshort
  exact ⟨by omega, by omega, (readBits_value_fits hread).2, exec_rdbits_eq hread⟩

/-- Settles O14: of the outcomes of a bit read, the three with a refill record one reply. -/
theorem rdbitsAsksOnlyWhenShort : Obligations.RdbitsAsksOnlyWhenShort := by
  intro s t count d h
  obtain ⟨q, hq, rfl⟩ := execRdbits_eq_next h
  cases readBits_outcome hq with
  | rejected | buffered =>
    change (repliesSince s (s.endRead _ s.source _)).length = _
    rw [repliesSince_endRead (List.append_nil _).symm, if_neg (by omega)]
    rfl
  | failed hcount | short hcount | refilled hcount =>
    rw [repliesSince_endRead (Source.answered_log _ _), if_pos ⟨by omega, hcount⟩]
    rfl

/-- Settles O15: a short read empties the register and uses the byte list up, which `readBits_exhausted` starts from. -/
theorem rdbitsAfterEndOfStream : Obligations.RdbitsAfterEndOfStream := by
  intro s t count d r bytes hsrc h hgave heos
  obtain ⟨q, hq, rfl⟩ := execRdbits_eq_next h
  obtain rfl := readerGave_endRead.mp hgave
  obtain ⟨-, hempty⟩ := readBits_short hq heos
  have husedUp := readBits_short_stream hsrc hq heos
  refine ⟨hempty, husedUp, fun c d' hpos hc => ?_, exec_rdbits_zero _⟩
  exact ⟨_, exec_rdbits_eq_of_value_zero d' (readBits_exhausted hempty husedUp hpos hc), rfl, Source.answered_log _ _, rfl⟩

/-- Settles O7: the check of the count comes before all else. -/
theorem rdbitsRejectsCountAbove64 : Obligations.RdbitsRejectsCountAbove64 := fun s _ d hcount =>
  exec_rdbits_eq_of_value_zero d (readBits_rejected s.reader s.source hcount)

/-- Settles O11: a failed refill leaves the drain undone. -/
theorem rdbitsTransportErrorKeepsUnit : Obligations.RdbitsTransportErrorKeepsUnit := fun _ _ d _ hcount hvalid hanswer =>
  exec_rdbits_eq_of_value_zero d (readBits_error hcount hvalid hanswer)

end Sys2Proof.Machine
end

section
/-!
SUPPORT. The bytes of a fill and of a flush one by one (20_memory.md R56, 41_bitwriter.md R124, R133), what a bit write and
a flush return for each answer of the sink, and the obligations on WRBITS, PADDING and FLUSH.
-/

namespace Sys2Proof.Machine

/-! ### The bytes of an emit, one by one -/

/-- The byte at a place of an unpacked value: the most significant one first (20_memory.md R56). -/
theorem unpackBytes_getElem? {m j : Nat} (y : Nat) (hj : j < m) :
    (unpackBytes m y)[j]? = some (BitVec.ofNat 8 (y / 2 ^ (8 * (m - 1 - j)))) := by
  induction m generalizing j with
  | zero => exact absurd hj (Nat.not_lt_zero j)
  | succ m ih =>
    cases j with
    | zero => rfl
    | succ j =>
      have hplace : m + 1 - 1 - (j + 1) = m - 1 - j := by omega
      rw [unpackBytes, List.getElem?_cons_succ, ih (Nat.lt_of_succ_lt_succ hj), hplace]

/-- The byte at a place of an emit, through the byte transform (20_memory.md R56). -/
theorem emittedBytes_getElem? {m j : Nat} (o : BitOrder) (y : Nat) (hj : j < m) :
    (emittedBytes o m y)[j]? = some (xform o (BitVec.ofNat 8 (y / 2 ^ (8 * (m - 1 - j))))) := by
  rw [emittedBytes, List.getElem?_map, unpackBytes_getElem? y hj, Option.map_some]

/-- The byte at a place of a fill, whose first byte holds the bits from 56 up (41_bitwriter.md R124). -/
theorem emittedBytes_eight_getElem? {j : Nat} (o : BitOrder) (y : Nat) (hj : j < 8) :
    (emittedBytes o 8 y)[j]? = some (xform o (BitVec.ofNat 8 (y / 2 ^ (56 - 8 * j)))) := by
  have hplace : 56 - 8 * j = 8 * (8 - 1 - j) := by omega
  rw [hplace, emittedBytes_getElem? o y hj]

/-- The bits buffered and the padding make up the `ceil(valid/8)` bytes of a flush (41_bitwriter.md R133). -/
theorem add_paddingBits (valid : Nat) : valid + paddingBits valid = 8 * ((valid + 7) / 8) := by
  unfold paddingBits
  omega

/-- The padded content fits the bytes of a flush (41_bitwriter.md R133). -/
theorem paddedContent_lt (u : WriterUnit) :
    writerContent u * 2 ^ paddingBits u.valid.toNat < 2 ^ (8 * ((u.valid.toNat + 7) / 8)) := by
  rw [← add_paddingBits]
  exact concatBits_lt (y := 0) (writerContent_lt u) (Nat.two_pow_pos _)

/-- The byte at a place of a flush (41_bitwriter.md R133). -/
theorem flushBytes_getElem? {j : Nat} (u : WriterUnit) (hj : j < (u.valid.toNat + 7) / 8) :
    (flushBytes u)[j]? = some (xform u.order (BitVec.ofNat 8
      (writerContent u * 2 ^ paddingBits u.valid.toNat / 2 ^ (8 * ((u.valid.toNat + 7) / 8 - 1 - j))))) := by
  rw [flushBytes, add_paddingBits, Nat.mul_div_cancel_left _ (by decide), emittedBytes_getElem? _ _ hj]

/-! ### A bit write and a flush, answer by answer -/

/-- A fill that the sink accepts (41_bitwriter.md R125). -/
theorem writeBits_emitted {count : Nat} (value : Nat) {u : WriterUnit} {snk : Sink} (hcount : count ≤ 64)
    (hroom : writerRoom u ≤ count) (hanswer : snk.answer 8 = some .ok) :
    writeBits count value u snk = .next ⟨.ok, count, ErrToken.zero, refilled count (low value count) u,
      snk.answered (emittedBytes u.order 8 (fullWord count (low value count) u)) .ok⟩ := by
  rw [writeBits_fill value snk hcount hroom, snkWrite_ok (by rwa [emittedBytes_length]), andThen_next, settleWrite]

/-- A fill that the sink answers with an error (41_bitwriter.md R126). -/
theorem writeBits_failed {count acc : Nat} (value : Nat) {u : WriterUnit} {snk : Sink} {e : ErrToken}
    (hcount : count ≤ 64) (hroom : writerRoom u ≤ count) (hanswer : snk.answer 8 = some (.error acc e)) (hacc : acc ≤ 8) :
    writeBits count value u snk = .next ⟨.transportError, acc, e, u,
      snk.answered (emittedBytes u.order 8 (fullWord count (low value count) u)) (.error acc e)⟩ := by
  rw [writeBits_fill value snk hcount hroom, snkWrite_error (by rwa [emittedBytes_length]) (by rwa [emittedBytes_length]),
    andThen_next, settleWrite]

/-- A flush of an empty Writer makes no write (41_bitwriter.md R136). -/
theorem flushBits_empty {u : WriterUnit} (snk : Sink) (hvalid : u.valid = 0#6) :
    flushBits u snk = .next ⟨.ok, 0, ErrToken.zero, u, snk⟩ :=
  if_pos (congrArg BitVec.toNat hvalid)

/-- A flush of a Writer that is not empty makes one write (41_bitwriter.md R133). -/
theorem flushBits_emit {u : WriterUnit} (snk : Sink) (hvalid : u.valid ≠ 0#6) :
    flushBits u snk =
      andThen (snkWrite (flushBytes u) snk) fun answer => .next (settleWrite u { u with valid := 0#6 } 0 answer) :=
  if_neg fun hzero => hvalid (BitVec.eq_of_toNat_eq hzero)

/-- A flush that the sink accepts (41_bitwriter.md R134). -/
theorem flushBits_emitted {u : WriterUnit} {snk : Sink} (hvalid : u.valid ≠ 0#6)
    (hanswer : snk.answer ((u.valid.toNat + 7) / 8) = some .ok) :
    flushBits u snk =
      .next ⟨.ok, 0, ErrToken.zero, { u with valid := 0#6 }, snk.answered (flushBytes u) .ok⟩ := by
  rw [flushBits_emit snk hvalid, snkWrite_ok (by rwa [flushBytes_length]), andThen_next, settleWrite]

/-- A flush that the sink answers with an error (41_bitwriter.md R135). -/
theorem flushBits_failed {u : WriterUnit} {snk : Sink} {acc : Nat} {e : ErrToken} (hvalid : u.valid ≠ 0#6)
    (hanswer : snk.answer ((u.valid.toNat + 7) / 8) = some (.error acc e)) (hacc : acc ≤ (u.valid.toNat + 7) / 8) :
    flushBits u snk = .next ⟨.transportError, acc, e, u, snk.answered (flushBytes u) (.error acc e)⟩ := by
  rw [flushBits_emit snk hvalid, snkWrite_error (by rwa [flushBytes_length]) (by rwa [flushBytes_length]), andThen_next,
    settleWrite]

/-! ### The obligations on WRBITS -/

/-- WRBITS, with its response and the rest of the next state written out (41_bitwriter.md R120). -/
theorem exec_wrbits_eq {s : State} {count : BitVec 8} {value : Word} {q : WriteResult}
    (h : writeBits count.toNat value.toNat s.writer s.sink = .next q) :
    exec (.wrbits count value) s =
      .next { s with
        writer := q.unit
        sink := q.sink
        writerPort := s.writerPort.respond ⟨q.status, BitVec.ofNat 64 q.n, 0#64, q.err, []⟩ } :=
  exec_wrbits_of_next h

/-- The register after a bit write without a fill holds just the bits buffered (41_bitwriter.md R122). -/
theorem appended_reg {count x : Nat} {u : WriterUnit} (hx : x < 2 ^ count) (hroom : count < writerRoom u) :
    (appended count x u).reg.toNat = concatBits (writerContent u) count x := by
  have hsum := writerRoom_add_valid u
  refine zext64_toNat ((concatBits_lt (writerContent_lt u) hx).trans_le (Nat.pow_le_pow_right (by decide) ?_))
  omega

/-- Settles O21: the no-fill path of a bit write, whose bits `appended_bits` says. -/
theorem wrbitsWithRoom : Obligations.WrbitsWithRoom := by
  intro s count value hroom content'
  have hx : low value.toNat count.toNat < 2 ^ count.toNat := Nat.mod_lt _ (Nat.two_pow_pos _)
  have hbits := appended_bits hx hroom
  refine ⟨_, exec_wrbits_eq (writeBits_buffered value.toNat s.sink hroom), rfl, appended_reg hx hroom,
    congrArg Bits.len hbits, Nat.le_of_lt_succ (BitVec.isLt _), congrArg Bits.val hbits, ?_⟩
  rintro rfl
  have hnone : Bits.mk (low value.toNat (0#8).toNat) (0#8).toNat = .nil := congrArg (Bits.mk · 0) (Nat.mod_one _)
  rw [hnone, Bits.append_nil] at hbits
  exact ⟨congrArg Bits.val hbits, BitVec.eq_of_toNat_eq (congrArg Bits.len hbits)⟩

/-- Settles O22: the fill path of a bit write that the sink accepts. -/
theorem wrbitsFillAccepted : Obligations.WrbitsFillAccepted := by
  intro s count value hcount hroom hanswer take rest x full
  have hx : x < 2 ^ count.toNat := Nat.mod_lt _ (Nat.two_pow_pos _)
  have hvalid := s.writer.valid.isLt
  exact ⟨emittedBytes s.writer.order 8 full, emittedBytes_length _ _ _, fullWord_lt hx hroom, by omega,
    fun j hj => emittedBytes_eight_getElem? _ _ hj, exec_wrbits_eq (writeBits_emitted value.toNat hcount hroom hanswer)⟩

/-- Settles O23: the fill path of a bit write that the sink fails. -/
theorem wrbitsFillFailedKeepsUnit : Obligations.WrbitsFillFailedKeepsUnit := by
  intro s count value acc e hcount hroom hanswer hacc take x full
  exact ⟨emittedBytes s.writer.order 8 full, emittedBytes_length _ _ _, fun j hj => emittedBytes_eight_getElem? _ _ hj,
    exec_wrbits_eq (writeBits_failed value.toNat hcount hroom hanswer hacc)⟩

/-- Settles O20: the check of the count comes before all else. -/
theorem wrbitsRejectsCountAbove64 : Obligations.WrbitsRejectsCountAbove64 := fun s _ value hcount =>
  exec_wrbits_eq (writeBits_rejected value.toNat s.writer s.sink hcount)

/-! ### The obligations on PADDING -/

/-- Settles O26: the answer is PADDING's definition, and the row of PADDING leaves no bit of the word free. -/
theorem paddingCountsBitsToBoundary : Obligations.PaddingCountsBitsToBoundary := by
  refine ⟨fun s => rfl, fun c => ⟨fun h => ?_, fun h => ?_⟩⟩
  · obtain ⟨-, hword, -⟩ := encodeUndoesDecode .writer c .padding h
    exact hword.symm
  · exact decode_of_hits (i := .padding) (by rw [h]; decide) trivial

/-- Settles O27: the padding reaches a byte boundary, and no smaller count does. -/
theorem paddingIsLeastAlignment : Obligations.PaddingIsLeastAlignment := by
  intro s t r h hgave
  cases h
  obtain rfl := writerGave_endWrite.mp hgave
  have hlt : paddingBits s.writer.valid.toNat < 8 := Nat.mod_lt _ (by decide)
  have hn : (respond .ok (paddingBits s.writer.valid.toNat) 0).n.toNat = paddingBits s.writer.valid.toNat :=
    zext64_toNat (by omega)
  have haligned := add_paddingBits_mod_eight s.writer.valid.toNat
  rw [hn]
  exact ⟨haligned, fun q hq => by omega, by omega⟩

/-! ### The obligations on FLUSH -/

/-- FLUSH, with its response and the rest of the next state written out (41_bitwriter.md R132). -/
theorem exec_flush_eq {s : State} {q : WriteResult} (h : flushBits s.writer s.sink = .next q) :
    exec .flush s =
      .next { s with
        writer := q.unit
        sink := q.sink
        writerPort := s.writerPort.respond ⟨q.status, BitVec.ofNat 64 q.n, 0#64, q.err, []⟩ } :=
  exec_flush_of_next h

/-- FLUSH of an empty Writer answers OK and leaves all else as it was (41_bitwriter.md R136). -/
theorem exec_flush_empty {s : State} (hvalid : s.writer.valid = 0#6) :
    exec .flush s = .next { s with writerPort := s.writerPort.respond ⟨.ok, 0#64, 0#64, ErrToken.zero, []⟩ } :=
  exec_flush_eq (flushBits_empty s.sink hvalid)

/-- Settles O29: `exec_flush_empty`, which an OK flush leaves the Writer ready for. -/
theorem flushOfEmptyWriterEmitsNothing : Obligations.FlushOfEmptyWriterEmitsNothing := by
  refine ⟨fun s => exec_flush_empty, fun s t r h hgave hok => ?_⟩
  obtain ⟨q, hq, rfl⟩ := execFlush_eq_next h
  obtain rfl := writerGave_endWrite.mp hgave
  obtain ⟨hempty, -⟩ := flushBits_conserves hq hok
  exact exec_flush_empty hempty

/-- Settles O30: the flush of a Writer that is not empty, accepted; a count of 1 to 63 bits is 1 to 8 bytes. -/
theorem flushAccepted : Obligations.FlushAccepted := by
  intro s hvalid p nb y hanswer
  have hpos : s.writer.valid.toNat ≠ 0 := fun hzero => hvalid (BitVec.eq_of_toNat_eq hzero)
  have hlt := s.writer.valid.isLt
  exact ⟨flushBytes s.writer, flushBytes_length _, by omega, by omega, paddedContent_lt _,
    fun j hj => flushBytes_getElem? _ hj, exec_flush_eq (flushBits_emitted hvalid hanswer)⟩

/-- Settles O31: the flush of a Writer that is not empty, failed. -/
theorem flushFailedKeepsUnit : Obligations.FlushFailedKeepsUnit := by
  intro s acc e hvalid p nb y hanswer hacc
  exact ⟨flushBytes s.writer, flushBytes_length _, fun j hj => flushBytes_getElem? _ hj,
    exec_flush_eq (flushBits_failed hvalid hanswer hacc)⟩

end Sys2Proof.Machine
end

section
/-!
SUPPORT. The byte commands (42_byteadapter.md R150 to R167): a loop of one chunk, the end of a loop by a transport error,
loops into a sink that accepts, the requests of a loop, and the way of a buffer through the Writer and back; and the
obligations on RDBYTES and WRBYTES.
-/

namespace Sys2Proof.Machine

/-! ### A loop of reads: one chunk, and a transport error -/

/-- A length of 1 to 8 is one chunk (42_byteadapter.md R152). -/
theorem chunkSizes_of_le_eight {len : Nat} (hpos : 1 ≤ len) (hle : len ≤ 8) : chunkSizes len = [len] := by
  obtain rfl | hlt := Nat.eq_or_lt_of_le hle
  · rfl
  · exact chunkSizes_small hpos hlt

theorem storeAt_nil (buf : List Byte) (i : Nat) : storeAt buf i [] = buf := by
  simp [storeAt]

/-- A loop of one chunk does what its bit read does and stores the whole bytes of the bits that this hands out: all of them
when the read is OK, none when it fails (42_byteadapter.md R153 to R155). -/
theorem readChunks_singleton {c : Nat} {u : ReaderUnit} {src : Source} {q : ReadResult}
    (hq : readBits (8 * c) u src = .next q) (hc : c ≤ 8) (i : Nat) (buf : List Byte) :
    readChunks [c] i buf u src = .next ⟨q.status, i + q.n / 8, q.err,
      storeAt buf i (unpackBytes (q.n / 8) (q.value / 2 ^ (q.n % 8))), q.unit, q.source⟩ := by
  have hbytes : 8 * c / 8 = c := Nat.mul_div_cancel_left c (by decide)
  have hwhole (x : Nat) : x / 2 ^ (8 * c % 8) = x := by rw [Nat.mul_mod_right, Nat.pow_zero, Nat.div_one]
  cases readBits_outcome hq with
  | rejected => omega
  | buffered =>
    rw [readChunks_cons_ok hq rfl, readChunks_nil]
    simp only [readBuffered, hbytes, hwhole]
  | refilled =>
    rw [readChunks_cons_ok hq rfl, readChunks_nil]
    simp only [hbytes, hwhole]
  | short => rw [readChunks_cons_short hq rfl]
  | failed => simp [readChunks, hq, unpackBytes, storeAt_nil]

/-- The whole bytes stored of a value that fits its `n` bits are its first bits (42_byteadapter.md R154). -/
theorem packBytes_storeAt_wholeBytes (buf : List Byte) {value n : Nat} (hfits : value < 2 ^ n) :
    packBytes ((storeAt buf 0 (unpackBytes (n / 8) (value / 2 ^ (n % 8)))).take (n / 8)) = value / 2 ^ (n % 8) := by
  have hwhole : value / 2 ^ (n % 8) < 2 ^ (8 * (n / 8)) := by
    refine Nat.div_lt_of_lt_mul ?_
    rwa [← pow_add, Nat.mod_add_div]
  have htake := storeAt_take_stored (bs := unpackBytes (n / 8) (value / 2 ^ (n % 8))) (Nat.zero_le buf.length)
  rw [unpackBytes_length, Nat.zero_add, List.take_zero, List.nil_append] at htake
  rw [htake, packBytes_unpackBytes, Nat.mod_eq_of_lt hwhole]

/-- Settles O16: a buffer of 1 to 8 bytes is one chunk, and `readChunks_singleton` says all that its loop does. -/
theorem rdbytesOfOneChunk : Obligations.RdbytesOfOneChunk := by
  intro s t len buf r hpos hle hlen h hgave
  obtain ⟨q, hq, rfl⟩ := execRdbits_eq_next h
  obtain rfl := readerGave_endRead.mp hgave
  have hcount : (BitVec.ofNat 8 (8 * len.toNat)).toNat = 8 * len.toNat := by
    rw [BitVec.toNat_ofNat]
    omega
  rw [hcount] at hq
  have hloop := readChunks_singleton hq hle 0 buf
  rw [Nat.zero_add, ← chunkSizes_of_le_eight hpos hle] at hloop
  obtain ⟨-, -, -, -, hlength, hdrop⟩ := readChunks_stored hloop (by rw [chunkSizes_sum, hlen, Nat.zero_add])
  obtain ⟨hn, hfits⟩ := readBits_value_fits hq
  have hbytes := packBytes_storeAt_wholeBytes buf hfits
  have hvalue : (zext64 q.value).toNat = q.value :=
    zext64_toNat (hfits.trans_le (Nat.pow_le_pow_right (by decide) hn))
  have hbits : (zext64 q.n).toNat = q.n := zext64_toNat (by omega)
  have hstored : (zext64 (q.n / 8)).toNat = q.n / 8 := zext64_toNat (by omega)
  refine ⟨_, exec_rdbytes_of_next hlen hloop, rfl, rfl, rfl, hlength, ?rest, fun hok => ?ok, fun heos => ?endOfStream,
    fun herr => ?transportError⟩
  case rest => rwa [respondBuf, hstored]
  case ok =>
    have hread := readBits_ok hq hok
    have hn : q.n / 8 = len.toNat := by omega
    have hlost : q.n % 8 = 0 := by omega
    rw [List.take_of_length_le (by rw [hlength, hlen, hn]), hlost, Nat.pow_zero, Nat.div_one] at hbytes
    simpa [respondBuf, respondErr, hstored, hvalue, hlost] using ⟨hn, hbytes⟩
  case endOfStream => simpa [respondBuf, respondErr, hstored, hvalue, hbits] using hbytes
  case transportError =>
    have hstatus : q.status = .transportError := herr
    have hnone : q.n = 0 := congrArg Bits.len (readBits_failed hq (by simp [hstatus]) (by simp [hstatus]))
    rw [hnone]
    rfl

/-- A loop of reads that ends with TransportError stored the chunks before one of them, and the source answered the read of
that one with the error (42_byteadapter.md R155). -/
theorem readChunks_transportError {cs : List Nat} {i : Nat} {buf : List Byte} {u : ReaderUnit} {src : Source}
    {r : FillResult} (h : readChunks cs i buf u src = .next r) (hcs : ∀ c ∈ cs, c ≤ 8)
    (herr : r.status = .transportError) :
    (∃ done c rest, cs = done ++ c :: rest ∧ r.n = i + done.sum) ∧
      ∃ replies, r.source.log = src.log ++ replies ∧ replies.getLast? = some (.error r.err) := by
  induction cs generalizing i buf u src with
  | nil =>
    cases h
    cases herr
  | cons c cs ih =>
    obtain ⟨hc, hcs⟩ := List.forall_mem_cons.mp hcs
    obtain ⟨q, hq, ⟨-, hr⟩ | ⟨-, rfl⟩ | ⟨hok, heos, rfl⟩⟩ := readChunks_cons_eq_next h
    · obtain ⟨⟨done, d, rest, rfl, hn⟩, replies, hlog, hlast⟩ := ih hr hcs
      obtain ⟨first, hfirst⟩ := readBits_log_prefix hq
      refine ⟨⟨c :: done, d, rest, rfl, by rw [hn, List.sum_cons, Nat.add_assoc]⟩, first ++ replies, ?_, ?_⟩
      · rw [hlog, ← hfirst, List.append_assoc]
      · rw [List.getLast?_append, hlast]
        rfl
    · cases herr
    · refine ⟨⟨[], c, cs, rfl, rfl⟩, ?_⟩
      cases readBits_outcome hq with
      | rejected => omega
      | buffered | refilled => exact absurd rfl hok
      | short => exact absurd rfl heos
      | failed _ _ e => exact ⟨[.error e], Source.answered_log _ _, rfl⟩

/-- Settles O19: `readChunks_transportError`; the chunks before another one are of 8 bytes. -/
theorem rdbytesTransportErrorReportsChunks : Obligations.RdbytesTransportErrorReportsChunks := by
  intro s t len buf r h hgave herr
  obtain ⟨-, q, hq, rfl⟩ := execRdbytes_eq_next h
  obtain rfl := readerGave_endRead.mp hgave
  obtain ⟨⟨done, c, rest, hchunks, hn⟩, replies, hlog, hlast⟩ :=
    readChunks_transportError hq (fun c hc => (chunkSizes_bounds hc).2) herr
  obtain ⟨hmod, hlt⟩ := chunkSizes_prefix hchunks
  have hqn : (zext64 q.n).toNat = q.n := zext64_toNat (by have := len.isLt; omega)
  simp only [respondBuf, hqn, repliesSince_endRead hlog]
  exact ⟨by omega, by omega, hlast⟩

/-! ### A loop of writes and the answers of the sink -/

/-- Writes that were all accepted: what the sink accepted are their bytes. -/
theorem acceptedBytes_of_ok {writes : List SinkWrite} (h : ∀ w ∈ writes, w.reply = .ok) :
    acceptedBytes writes = writes.flatMap fun w => w.bytes := by
  induction writes with
  | nil => rfl
  | cons w writes ih =>
    obtain ⟨hw, hrest⟩ := List.forall_mem_cons.mp h
    obtain ⟨bytes, reply⟩ := w
    obtain rfl : reply = .ok := hw
    rw [acceptedBytes, ih hrest, List.flatMap_cons]

/-- WRBYTES whose writes were all accepted appends the whole buffer: the bits buffered before and the buffer's are, in
order, those the sink accepted and those buffered after (42_byteadapter.md R161, R163). -/
theorem writeChunks_whole_of_accepted {len : BitVec 32} {buf : List Byte} {u : WriterUnit} {snk : Sink} {r : WriteResult}
    (hlen : buf.length = len.toNat) (h : writeChunks (chunkSizes len.toNat) 0 buf u snk = .next r)
    {writes : List SinkWrite} (hlog : r.sink.log = snk.log ++ writes) (haccepted : ∀ w ∈ writes, w.reply = .ok) :
    r.status = .ok ∧ r.n = len.toNat ∧
      u.bits.append (bufferBits buf) = (streamBits u.order (acceptedBytes writes)).append r.unit.bits := by
  have hsum : 0 + (chunkSizes len.toNat).sum = buf.length := by rw [chunkSizes_sum, hlen, Nat.zero_add]
  obtain ⟨writes', written, hlog', hwritten, hbits, -, hstatus⟩ :=
    writeChunks_conserves h (fun c hc => (chunkSizes_bounds hc).2) hsum.le
  obtain rfl : writes = writes' := List.append_cancel_left (hlog.symm.trans hlog')
  obtain ⟨hok, hn⟩ | ⟨-, -, w, acc, hlast, hreply⟩ := hstatus
  · rw [hsum] at hn
    rw [hn, List.take_length, List.take_zero, List.nil_append] at hwritten
    exact ⟨hok, hn.trans hlen, hwritten ▸ hbits⟩
  · have hw := haccepted w (List.mem_of_getLast? hlast)
    rw [hreply] at hw
    cases hw

/-- A flush whose write, if it made one, was accepted is OK (41_bitwriter.md R134). -/
theorem flushBits_of_accepted {u : WriterUnit} {snk : Sink} {r : WriteResult} (h : flushBits u snk = .next r)
    {writes : List SinkWrite} (hlog : r.sink.log = snk.log ++ writes) (haccepted : ∀ w ∈ writes, w.reply = .ok) :
    r.status = .ok ∧ streamBits u.order (acceptedBytes writes) = u.bits.append ⟨0, paddingBits u.valid.toNat⟩ := by
  have hok : r.status = .ok := by
    obtain ⟨-, rfl⟩ | ⟨-, reply, -, rfl⟩ := flushBits_eq_next h
    · rfl
    · rw [settleWrite_sink, Sink.answered_log] at hlog
      obtain rfl := List.append_cancel_left hlog
      obtain rfl : reply = .ok := haccepted _ (List.mem_singleton_self _)
      rfl
  obtain ⟨-, writes', hlog', hbits⟩ := flushBits_conserves h hok
  obtain rfl : writes = writes' := List.append_cancel_left (hlog.symm.trans hlog')
  exact ⟨hok, hbits⟩

/-! ### A sink that accepts every write -/

theorem Sink.Accepts.answer_eq {snk : Sink} (h : snk.Accepts) (m : Nat) : snk.answer m = some .ok := by
  simp [Sink.answer, h.1, h.2]

theorem Sink.Accepts.answersWithin {snk : Sink} (h : snk.Accepts) (k m : Nat) : snk.AnswersWithin k m := by
  simp [Sink.AnswersWithin, h.1, h.2]

/-- An accepted write of a full register of 8 bytes (42_byteadapter.md R164). -/
def SinkWrite.FullAccepted (w : SinkWrite) : Prop := w.bytes.length = 8 ∧ w.reply = .ok

/-- The sink accepts every write, and since a given one it has accepted writes of full registers alone. -/
def Sink.AcceptsSince (start snk : Sink) : Prop :=
  snk.Accepts ∧ ∃ writes, snk.log = start.log ++ writes ∧ ∀ w ∈ writes, w.FullAccepted

/-- A bit write into a sink that accepts every write adds at most an accepted write of a full register. -/
theorem writeBits_acceptsSince {count value : Nat} {u : WriterUnit} {start snk : Sink} {r : WriteResult}
    (h : writeBits count value u snk = .next r) (hsnk : start.AcceptsSince snk) : start.AcceptsSince r.sink := by
  obtain ⟨⟨hscript, hrest⟩, writes, hlog, hfull⟩ := id hsnk
  cases writeBits_outcome h with
  | rejected | buffered => exact hsnk
  | emitted _ _ bytes hbytes =>
    have hnone : snk.script.tail = [] := congrArg List.tail hscript
    have hlength : bytes.length = 8 := hbytes ▸ emittedBytes_length _ _ _
    refine ⟨⟨hnone, hrest⟩, writes ++ [⟨bytes, .ok⟩], ?_, ?_⟩
    · rw [Sink.answered_log, hlog, List.append_assoc]
    · exact List.forall_mem_append.mpr ⟨hfull, List.forall_mem_singleton.mpr ⟨hlength, rfl⟩⟩
  | failed _ _ _ _ _ _ _ hanswer =>
    rw [Sink.Accepts.answer_eq ⟨hscript, hrest⟩] at hanswer
    cases hanswer

/-- A loop of writes into a sink that accepts every write makes accepted writes of full registers alone
(42_byteadapter.md R164). -/
theorem writeChunks_acceptsSince {cs : List Nat} {i : Nat} {buf : List Byte} {u : WriterUnit} {snk : Sink}
    {r : WriteResult} (h : writeChunks cs i buf u snk = .next r) (hsink : snk.Accepts) : snk.AcceptsSince r.sink :=
  writeChunks_keeps (P := fun _ a => snk.AcceptsSince a) writeBits_acceptsSince h
    ⟨hsink, [], (List.append_nil _).symm, nofun⟩

/-- Accepted writes of full registers deliver 8 bytes each. -/
theorem acceptedBytes_length_of_full {writes : List SinkWrite} (h : ∀ w ∈ writes, w.FullAccepted) :
    (acceptedBytes writes).length = 8 * writes.length := by
  induction writes with
  | nil => rfl
  | cons w writes ih =>
    obtain ⟨⟨hlength, hreply⟩, hrest⟩ := List.forall_mem_cons.mp h
    obtain ⟨bytes, reply⟩ := w
    obtain rfl : reply = .ok := hreply
    rw [acceptedBytes, List.length_append, ih hrest, hlength, List.length_cons, Nat.mul_succ, Nat.add_comm]

/-- Settles O33: the loop completes with accepted writes of full registers alone, so it appends the whole buffer; the
lengths of the bits fix how many writes it makes and how many bits stay. -/
theorem wrbytesIntoAcceptingSink : Obligations.WrbytesIntoAcceptingSink := by
  intro s len buf hlen hsink
  obtain ⟨q, hq, -⟩ := writeChunks_completes (cs := chunkSizes len.toNat) 0 buf s.writer (hsink.answersWithin _ _)
  obtain ⟨-, writes, hlog, hfull⟩ := writeChunks_acceptsSince hq hsink
  obtain ⟨hok, hn, hbits⟩ := writeChunks_whole_of_accepted hlen hq hlog fun w hw => (hfull w hw).2
  have htoken : q.err = ErrToken.zero := (writeChunks_form hq).2.resolve_left (by simp [hok])
  have hcount : s.writer.valid.toNat + 8 * buf.length = 8 * (acceptedBytes writes).length + q.unit.valid.toNat :=
    congrArg Bits.len hbits
  rw [acceptedBytes_length_of_full hfull, hlen] at hcount
  have hlt := q.unit.valid.isLt
  refine ⟨_, exec_wrbytes_of_next hlen hq, ?response, writeChunks_order hq, ?_⟩
  case response =>
    rw [writerGave_endWrite, hok, hn, htoken]
    rfl
  rw [writesSince_endWrite hlog, State.endWrite_writer]
  refine ⟨by omega, by omega, hfull, ?_⟩
  rw [← hlen]
  exact congrArg Bits.val hbits

/-! ### There and back -/

/-- Bit strings that are equal and begin with as many bits, begin with the same ones. -/
theorem Bits.eq_of_append_eq {x y a b : Bits} (h : x.append a = y.append b) (hlen : x.len = y.len) (ha : a.Fits)
    (hb : b.Fits) : x = y := by
  have htail : a.len = b.len := by
    have := congrArg Bits.len h
    simp only [append_len] at this
    omega
  ext
  · rw [← x.append_val_div ha, ← y.append_val_div hb, h, htail]
  · exact hlen

/-- Buffers with the same bits are equal. -/
theorem bufferBits_injective {as bs : List Byte} (h : bufferBits as = bufferBits bs) : as = bs := by
  have hval : packBytes as = packBytes bs := congrArg Bits.val h
  have hlen : as.length = bs.length := Nat.eq_of_mul_eq_mul_left (by decide) (congrArg Bits.len h)
  rw [← unpackBytes_packBytes as, hval, hlen, unpackBytes_packBytes]

/-- RDBYTES from a byte list whose bits, behind those buffered, begin with a buffer's gives that buffer
(42_byteadapter.md R153). -/
theorem readChunks_of_prefix {len : BitVec 32} {blank bytes stream : List Byte} {u : ReaderUnit} {src : Source}
    {tail : Bits} (hblank : blank.length = len.toNat) (hbytes : bytes.length = len.toNat) (hsrc : src.Streams stream)
    (hbits : u.bits.append (streamBits u.order stream) = (bufferBits bytes).append tail) (htail : tail.Fits) :
    ∃ v src', readChunks (chunkSizes len.toNat) 0 blank u src =
      .next ⟨.ok, len.toNat, ErrToken.zero, bytes, v, src'⟩ := by
  obtain ⟨r, tail', hr, herr, hbits', htail', hlength, -, -, hstatus⟩ := readChunks_whole_stream u hblank hsrc
  rw [hbits] at hbits'
  obtain ⟨status, n, err, out, v, src'⟩ := r
  obtain ⟨rfl, rfl⟩ | ⟨-, hn, hm⟩ := hstatus
  · obtain rfl : err = ErrToken.zero := herr
    have hout : out.length = len.toNat := hlength.trans hblank
    rw [List.take_of_length_le hout.le] at hbits'
    have hsame : (bufferBits bytes).len = (bufferBits out).len := by simp only [bufferBits, hbytes, hout]
    obtain rfl := bufferBits_injective (Bits.eq_of_append_eq hbits' hsame htail htail')
    exact ⟨v, src', hr⟩
  · have := congrArg Bits.len hbits'
    simp only [Bits.append_len, bufferBits, List.length_take, hlength] at this hm hn
    omega

/-- An empty Writer has no bits. -/
theorem WriterUnit.bits_empty {u : WriterUnit} (h : u.valid = 0#6) : u.bits = .nil := by
  simp [WriterUnit.bits, writerContent, content, low, h, Nat.mod_one]

theorem writesSince_of_log {s t : State} {writes : List SinkWrite} (h : t.sink.log = s.sink.log ++ writes) :
    writesSince s t = writes := by
  simp [writesSince, h]

/-- When a Writer with nothing buffered runs WRBYTES and FLUSH and each write is accepted, the bytes of the writes carry the
bits of the buffer and then zeros (42_byteadapter.md R167). -/
theorem streamBits_of_wrbytes_flush {s t u : State} {len : BitVec 32} {bytes : List Byte} (hempty : s.writer.valid = 0#6)
    (hwrite : exec (.wrbytes len bytes) s = .next t) (hflush : exec .flush t = .next u)
    (haccepted : ∀ w ∈ writesSince s u, w.reply = .ok) :
    bytes.length = len.toNat ∧ ∃ pad,
      streamBits s.writer.order ((writesSince s u).flatMap fun w => w.bytes) = (bufferBits bytes).append ⟨0, pad⟩ := by
  obtain ⟨hlen, q, hq, rfl⟩ := execWrbytes_eq_next hwrite
  obtain ⟨p, hp, rfl⟩ := execFlush_eq_next hflush
  rw [State.endWrite_writer, State.endWrite_sink] at hp
  obtain ⟨written, hwritten⟩ := writeChunks_log_prefix hq
  obtain ⟨flushed, hflushed⟩ := flushBits_log_prefix hp
  have hlog : p.sink.log = s.sink.log ++ (written ++ flushed) := by rw [← hflushed, ← hwritten, List.append_assoc]
  rw [writesSince_of_log hlog] at haccepted ⊢
  obtain ⟨hacceptedW, hacceptedF⟩ := List.forall_mem_append.mp haccepted
  obtain ⟨-, -, hbits⟩ := writeChunks_whole_of_accepted hlen hq hwritten.symm hacceptedW
  obtain ⟨-, hpadded⟩ := flushBits_of_accepted hp hflushed.symm hacceptedF
  rw [WriterUnit.bits_empty hempty, Bits.nil_append] at hbits
  rw [writeChunks_order hq] at hpadded
  refine ⟨hlen, paddingBits q.unit.valid.toNat, ?_⟩
  rw [← acceptedBytes_of_ok haccepted, acceptedBytes_append, streamBits_append, hpadded, ← Bits.append_assoc, ← hbits]

/-- Settles O35: the bytes emitted carry the bits of the buffer and then zeros, and a Reader with nothing buffered takes the
buffer back from them. -/
theorem writeFlushReadRoundTrip : Obligations.WriteFlushReadRoundTrip := by
  intro s t u len bytes blank hempty hwrite hflush haccepted hblank back
  obtain ⟨hlen, pad, hstream⟩ := streamBits_of_wrbytes_flush hempty hwrite hflush haccepted
  have hreset : back.reader.bits = .nil := rfl
  have hzeros : Bits.Fits ⟨0, pad⟩ := Nat.two_pow_pos pad
  obtain ⟨v, src, hloop⟩ := readChunks_of_prefix (u := back.reader) (src := back.source) hblank hlen ⟨rfl, rfl⟩
    (by rw [hreset, Bits.nil_append]; exact hstream) hzeros
  exact ⟨_, exec_rdbytes_of_next hblank hloop, rfl⟩

/-! ### How many requests a loop makes -/

/-- A bit read makes at most one request (40_bitreader.md R114). -/
theorem readBits_requests {count : Nat} {u : ReaderUnit} {src : Source} {r : ReadResult}
    (h : readBits count u src = .next r) : r.source.log.length ≤ src.log.length + 1 := by
  cases readBits_outcome h with
  | rejected | buffered => exact Nat.le_succ _
  | failed | short | refilled => simp

/-- A loop of reads makes at most one request for each chunk (42_byteadapter.md R157). -/
theorem readChunks_requests {cs : List Nat} {i : Nat} {buf : List Byte} {u : ReaderUnit} {src : Source} {r : FillResult}
    (h : readChunks cs i buf u src = .next r) : r.source.log.length ≤ src.log.length + cs.length := by
  induction cs generalizing i buf u src with
  | nil => cases h; exact Nat.le_refl _
  | cons c cs ih =>
    rw [List.length_cons]
    obtain ⟨q, hq, hcase⟩ := readChunks_cons_eq_next h
    have hone := readBits_requests hq
    obtain ⟨-, hr⟩ | ⟨-, rfl⟩ | ⟨-, -, rfl⟩ := hcase
    · have hrest := ih hr
      omega
    · exact hone.trans (by omega)
    · exact hone.trans (by omega)

/-- A bit write makes at most one request (41_bitwriter.md R128). -/
theorem writeBits_requests {count value : Nat} {u : WriterUnit} {snk : Sink} {r : WriteResult}
    (h : writeBits count value u snk = .next r) : r.sink.log.length ≤ snk.log.length + 1 := by
  cases writeBits_outcome h with
  | rejected | buffered => exact Nat.le_succ _
  | emitted | failed => simp

/-- A loop of writes makes at most one request for each chunk (42_byteadapter.md R165). -/
theorem writeChunks_requests {cs : List Nat} {i : Nat} {buf : List Byte} {u : WriterUnit} {snk : Sink} {r : WriteResult}
    (h : writeChunks cs i buf u snk = .next r) : r.sink.log.length ≤ snk.log.length + cs.length := by
  induction cs generalizing i u snk with
  | nil => cases h; exact Nat.le_refl _
  | cons c cs ih =>
    rw [List.length_cons]
    obtain ⟨q, hq, hcase⟩ := writeChunks_cons_eq_next h
    have hone := writeBits_requests hq
    obtain ⟨-, rfl⟩ | ⟨-, hr⟩ := hcase
    · exact hone.trans (by omega)
    · have hrest := ih hr
      omega

/-- Settles O37: a loop makes at most one request for each of its `ceil(len/8)` chunks. -/
theorem byteCommandsBoundTheirRequests : Obligations.ByteCommandsBoundTheirRequests := by
  intro s t len buf
  rw [← chunkSizes_length]
  refine ⟨fun h => ?_, fun h => ?_⟩
  · obtain ⟨-, q, hq, rfl⟩ := execRdbytes_eq_next h
    rw [repliesSince, List.length_drop]
    exact Nat.sub_le_iff_le_add'.mpr (readChunks_requests hq)
  · obtain ⟨-, q, hq, rfl⟩ := execWrbytes_eq_next h
    rw [writesSince, List.length_drop]
    exact Nat.sub_le_iff_le_add'.mpr (writeChunks_requests hq)

/-- Settles O36: a length of 0 has no chunks. -/
theorem byteCommandsOfNothing : Obligations.ByteCommandsOfNothing := fun s =>
  ⟨exec_rdbytes_of_next (s := s) (len := 0#32) rfl (readChunks_nil 0 [] s.reader s.source),
    exec_wrbytes_of_next (s := s) (len := 0#32) (buf := []) rfl (writeChunks_nil 0 [] s.writer s.sink)⟩

end Sys2Proof.Machine
end

section
/-!
SUPPORT. The bits of a reversed byte and the entries of the BitOrderTable (43_bitordertable.md R170, R171), and the
obligations on bit order.
-/

namespace Sys2Proof.Machine

/-- Reversal is its own inverse: it is the transform of the order that reverses (43_bitordertable.md R172, R173). -/
theorem reverseBits_reverseBits (b : Byte) : reverseBits (reverseBits b) = b := xform_xform .leastSignificantFirst b

/-- Settles O39: reversal is the transform of one order, each transform undoes itself, and so loading undoes emitting
(`freshBits_emittedBytes`). -/
theorem transformUndoesItself : Obligations.TransformUndoesItself :=
  ⟨reverseBits_reverseBits, xform_xform, freshBits_emittedBytes⟩

/-- Bit `i` of the reversal is the bit as far from the other end (43_bitordertable.md R170). -/
theorem reverseBits_getLsbD (b : Byte) {i : Nat} (hi : i < 8) : (reverseBits b).getLsbD i = b.getLsbD (7 - i) := by
  rw [reverseBits, BitVec.getLsbD_reverse, BitVec.getMsbD_eq_getLsbD, decide_eq_true hi, Bool.true_and]

/-- The entry of the BitOrderTable at a byte is its reversal (43_bitordertable.md R171). -/
theorem bitOrderTable_getElem? (b : Byte) : bitOrderTable[b.toNat]? = some (reverseBits b) := by
  rw [bitOrderTable_eq, List.getElem?_map, List.getElem?_range b.isLt, Option.map_some, BitVec.ofNat_toNat,
    BitVec.setWidth_eq]

/-- Settles O38: the library's bits of a reversed word, and the table written as the list of reversals. -/
theorem reverseBitsMirrorsPositions : Obligations.ReverseBitsMirrorsPositions :=
  ⟨fun b _ hi => reverseBits_getLsbD b hi, bitOrderTable_getElem?, bitOrderTable_length⟩

end Sys2Proof.Machine
end

section
/-!
SUPPORT. What a transport error leaves of a unit (60_exceptions.md R205), and the obligation on it.
-/

namespace Sys2Proof.Machine

/-- A bit read that the source fails leaves the unit as it was (40_bitreader.md R109). -/
theorem readBits_transportError_unit {count : Nat} {u : ReaderUnit} {src : Source} {r : ReadResult}
    (h : readBits count u src = .next r) (herr : r.status = .transportError) : r.unit = u := by
  cases readBits_outcome h with
  | rejected | buffered | short | refilled => cases herr
  | failed => rfl

/-- A flush that is not OK leaves the unit as it was (41_bitwriter.md R135). -/
theorem flushBits_not_ok_unit {u : WriterUnit} {snk : Sink} {r : WriteResult} (h : flushBits u snk = .next r)
    (hok : r.status ≠ .ok) : r.unit = u := by
  obtain ⟨-, rfl⟩ | ⟨-, reply, -, rfl⟩ := flushBits_eq_next h
  · rfl
  · cases reply with
    | ok => exact absurd rfl hok
    | error => rfl

/-- Settles O43: the response carries the status of the bit read, the bit write or the flush, each of which keeps its unit
when the transport fails it. -/
theorem transportErrorKeepsUnit : Obligations.TransportErrorKeepsUnit := by
  intro s t i r h herr
  refine ⟨?rdbits, ?wrbits, ?flush⟩
  case rdbits =>
    rintro count d rfl hgave
    obtain ⟨q, hq, rfl⟩ := execRdbits_eq_next h
    obtain rfl := readerGave_endRead.mp hgave
    exact readBits_transportError_unit hq herr
  case wrbits =>
    rintro count value rfl hgave
    obtain ⟨q, hq, rfl⟩ := execWrbits_eq_next h
    obtain rfl := writerGave_endWrite.mp hgave
    have hok : q.status ≠ .ok := ne_of_eq_of_ne herr (by decide)
    exact (writeBits_not_ok hq hok).1
  case flush =>
    rintro rfl hgave
    obtain ⟨q, hq, rfl⟩ := execFlush_eq_next h
    obtain rfl := writerGave_endWrite.mp hgave
    have hok : q.status ≠ .ok := ne_of_eq_of_ne herr (by decide)
    exact flushBits_not_ok_unit hq hok

end Sys2Proof.Machine
end

section
/-!
SUPPORT. The turns of an idle unit and the reset of a unit (70_reset_and_hazards.md R231 to R233), and the obligations on
them.
-/

namespace Sys2Proof.Machine

/-! ### Turns in which nothing happens -/

/-- With no turn left a step changes nothing (log entries 1 and 10). -/
theorem step_of_agenda_nil {s : State} (h : s.agenda = []) : step s = .next s := by
  simp [step, nextTurn, h]

/-- A unit that takes up no command does nothing on its turn (70_reset_and_hazards.md R232). -/
theorem serve_of_accept_none {s : State} {p : PortId} (h : (s.port p).accept = none) : serve p s = .next s := by
  simp [serve, h]

/-- Settles O49: a step is the next turn, and the turn of a unit that takes up no command does nothing. -/
theorem idleUnitDoesNothing : Obligations.IdleUnitDoesNothing := by
  intro s
  refine ⟨step_of_agenda_nil, fun p ts hturn hidle => ?_⟩
  calc step s = serve p { s with agenda := ts } := step_of_agenda hturn
    _ = .next { s with agenda := ts } := serve_of_accept_none (by simpa using hidle)

/-! ### The reset of a unit -/

/-- A reset's step resets the unit and uses up the turn, whatever the unit is doing (70_reset_and_hazards.md R230). -/
theorem step_of_reset {s : State} {p : PortId} {ts : List Turn} (h : s.agenda = .reset p :: ts) :
    step s = .next { s.resetUnit p with agenda := ts } := by
  have hreset : ({ s with agenda := ts } : State).resetUnit p = { s.resetUnit p with agenda := ts } := by
    cases p <;> rfl
  rw [step_of_agenda h, takeTurn, hreset]

/-- A port without a command in progress has none to abandon. -/
theorem Port.abandon_of_idle {p : Port} (h : p.current = none) : p.abandon = p := by
  rw [Port.abandon, ← h]

/-- The reset of an idle Reader writes the unit alone (70_reset_and_hazards.md R232). -/
theorem State.resetUnit_reader_of_idle {s : State} (h : s.readerPort.current = none) :
    s.resetUnit .reader = { s with reader := ⟨s.cfgOrderR, 0#64, 0#7⟩ } := by
  rw [State.resetUnit, Port.abandon_of_idle h, h, Source.afterReset]

/-- The reset of an idle Writer writes the unit alone (70_reset_and_hazards.md R232). -/
theorem State.resetUnit_writer_of_idle {s : State} (h : s.writerPort.current = none) :
    s.resetUnit .writer = { s with writer := ⟨s.cfgOrderW, 0#64, 0#6⟩ } := by
  rw [State.resetUnit, Port.abandon_of_idle h, h, Sink.afterReset]

/-- A reset takes the unit's command off its port and leaves the rest of the port (70_reset_and_hazards.md R233). -/
@[simp] theorem State.resetUnit_port (s : State) (p : PortId) : (s.resetUnit p).port p = (s.port p).abandon := by
  cases p <;> rfl

/-- A reset leaves the other unit's port (70_reset_and_hazards.md R233). -/
@[simp] theorem State.resetUnit_port_other (s : State) (p : PortId) : (s.resetUnit p).port p.other = s.port p.other := by
  cases p <;> rfl

/-- A reset keeps the source's record (log entry 6). -/
@[simp] theorem State.resetUnit_source_log (s : State) (p : PortId) : (s.resetUnit p).source.log = s.source.log := by
  cases p <;> simp

/-- A reset keeps the sink's record (log entry 6). -/
@[simp] theorem State.resetUnit_sink_log (s : State) (p : PortId) : (s.resetUnit p).sink.log = s.sink.log := by
  cases p <;> simp

/-- Settles O52: the step resets the unit, and the reset of an idle unit writes that unit alone. -/
theorem resetConstructsIdleUnit : Obligations.ResetConstructsIdleUnit := by
  intro s ts
  constructor
  · intro hturn hidle
    rw [step_of_reset hturn, State.resetUnit_reader_of_idle hidle]
  · intro hturn hidle
    rw [step_of_reset hturn, State.resetUnit_writer_of_idle hidle]

/-- Settles O53: the step resets the unit, which abandons its command; neither this nor the transport after it writes a
response, a record or the other unit's side. -/
theorem resetEndsCommandWithoutResponse : Obligations.ResetEndsCommandWithoutResponse := by
  intro s p ts c hturn _
  refine ⟨_, step_of_reset hturn, ?current, ?pending, ?responses, ?other, ?sourceLog, ?sinkLog, ?reader, ?writer⟩
  case reader => rintro rfl; exact ⟨rfl, rfl, rfl⟩
  case writer => rintro rfl; exact ⟨rfl, rfl, rfl⟩
  all_goals simp

end Sys2Proof.Machine
end
